-- ==== Sys2Proof/Word.lean ====
section
/-!
DEFINITION. The word types of the unit: the 16-bit word of memory and registers (R10, R11), the opcode byte
and the 4-bit fields of an instruction's first word (R80).
-/

namespace Sys2Proof

/-- A 16-bit unit of memory and register storage; also an address (R11, R50). -/
abbrev Word := BitVec 16

/-- Bits 15..8 of an instruction's first word (R80). -/
abbrev OpByte := BitVec 8

/-- A 4-bit field of an instruction's first word, bits 7..4 or 3..0 (R80). -/
abbrev RegField := BitVec 4

end Sys2Proof
end

