-- ==== Sys2Proof/Config.lean ====
section
/-!
DEFINITION. The implementation parameters of R9. Every row of that table is fixed for this hardware except
ENTRY_PC, of which only the default stands here (the reset operation takes the value as an argument), and
OUTPUT_RENDER, which is outside the unit (an argument of `gatewayLines` in Machine/Ports.lean). WORD_WIDTH, PC_WIDTH and ADDR_WIDTH are
the 16 of `Word`, NUM_GR is the 8 of `State.gr`, OPCODE_SET and INSTR_LENGTHS are `Opcode` and `Opcode.words`.
-/

namespace Sys2Proof.Config

/-- The default of the OPEN parameter ENTRY_PC (R9, R36). DESIGN CHOICE, safe or unsafe as log entry 3 says. -/
def entryPcDefault : Word := 0x0000

/-- SVC_OUTPUT_TYPE: the one supervisor-call type (R9, R88). -/
def svcOutputType : BitVec 4 := 2

end Sys2Proof.Config
end

