-- ==== Sys2Proof/Syntax.lean ====
section
/-!
DEFINITION. The instructions of the closed opcode map (R85), one constructor per row of spec/opcode_table.json.
A register field keeps all 16 values it can hold: 8 to 15 decode like the others and raise UndefinedRegister when
the instruction accesses the field (R23, R90). Fields an instruction does not use are not part of it (R87).
-/

namespace Sys2Proof

/-- One constructor per opcode; fields in the order of the assembler's operands (R82 to R84). -/
inductive Instr where
  /-- `LD r1,adr,x`, opcode 0x10 (R150). -/
  | ldMem (r1 : RegField) (adr : Word) (x : RegField)
  /-- `ST r1,adr,x`, opcode 0x11 (R151). -/
  | st (r1 : RegField) (adr : Word) (x : RegField)
  /-- `LAD r1,adr,x`, opcode 0x12 (R152). -/
  | lad (r1 : RegField) (adr : Word) (x : RegField)
  /-- `LD r1,r2`, opcode 0x14 (R153). -/
  | ldReg (r1 r2 : RegField)
  /-- `ADDA r1,adr,x`, opcode 0x20 (R170). -/
  | adda (r1 : RegField) (adr : Word) (x : RegField)
  /-- `SUBA r1,r2`, opcode 0x25 (R171). -/
  | suba (r1 r2 : RegField)
  /-- `AND r1,adr,x`, opcode 0x30 (R172). -/
  | andMem (r1 : RegField) (adr : Word) (x : RegField)
  /-- `AND r1,r2`, opcode 0x34 (R173). -/
  | andReg (r1 r2 : RegField)
  /-- `CPA r1,adr,x`, opcode 0x40 (R174). -/
  | cpaMem (r1 : RegField) (adr : Word) (x : RegField)
  /-- `CPA r1,r2`, opcode 0x44 (R175). -/
  | cpaReg (r1 r2 : RegField)
  /-- `JMI adr,x`, opcode 0x61 (R190). -/
  | jmi (adr : Word) (x : RegField)
  /-- `JZE adr,x`, opcode 0x63 (R191). -/
  | jze (adr : Word) (x : RegField)
  /-- `JUMP adr,x`, opcode 0x64 (R192). -/
  | jump (adr : Word) (x : RegField)
  /-- `JPL adr,x`, opcode 0x65 (R193). -/
  | jpl (adr : Word) (x : RegField)
  /-- `RET`, opcode 0x81 (R198). -/
  | ret
  /-- `SVC` output, first word 0xFF02, data pointer and length pointer (R210). -/
  | svc (dp lp : Word)
deriving DecidableEq, Repr

end Sys2Proof
end

