-- ==== Sys2Proof/WellFormed.lean ====
section
/-!
DEFINITION. Well-formed instructions: every register field the instruction uses names a register (R23, R233). An
ill-formed instruction still decodes, encodes and runs: it raises UndefinedRegister when it accesses the field.
-/

namespace Sys2Proof

/-- The field names one of GR0 to GR7 (R23). -/
def RegField.namesRegister (f : RegField) : Bool := decide (f.toNat < 8)

/-- Every register field the instruction uses names a register. The index field value 0, "no index", is among the
values admitted (R25, R90). -/
def Instr.wellFormed : Instr → Bool
  | .ldMem r1 _ x => RegField.namesRegister r1 && RegField.namesRegister x
  | .st r1 _ x => RegField.namesRegister r1 && RegField.namesRegister x
  | .lad r1 _ x => RegField.namesRegister r1 && RegField.namesRegister x
  | .ldReg r1 r2 => RegField.namesRegister r1 && RegField.namesRegister r2
  | .adda r1 _ x => RegField.namesRegister r1 && RegField.namesRegister x
  | .suba r1 r2 => RegField.namesRegister r1 && RegField.namesRegister r2
  | .andMem r1 _ x => RegField.namesRegister r1 && RegField.namesRegister x
  | .andReg r1 r2 => RegField.namesRegister r1 && RegField.namesRegister r2
  | .cpaMem r1 _ x => RegField.namesRegister r1 && RegField.namesRegister x
  | .cpaReg r1 r2 => RegField.namesRegister r1 && RegField.namesRegister r2
  | .jmi _ x => RegField.namesRegister x
  | .jze _ x => RegField.namesRegister x
  | .jump _ x => RegField.namesRegister x
  | .jpl _ x => RegField.namesRegister x
  | .ret => true
  | .svc _ _ => true

/-- The number of words the instruction occupies (R81). -/
def Instr.words : Instr → Nat
  | .ldMem _ _ _ => 2
  | .st _ _ _ => 2
  | .lad _ _ _ => 2
  | .ldReg _ _ => 1
  | .adda _ _ _ => 2
  | .suba _ _ => 1
  | .andMem _ _ _ => 2
  | .andReg _ _ => 1
  | .cpaMem _ _ _ => 2
  | .cpaReg _ _ => 1
  | .jmi _ _ => 2
  | .jze _ _ => 2
  | .jump _ _ => 2
  | .jpl _ _ => 2
  | .ret => 1
  | .svc _ _ => 3

end Sys2Proof
end

