-- ==== Sys2Proof/Decode.lean ====
section
/-!
DEFINITION. The decoder and, after it, the encoder, both over the one opcode map of R85. Decoding is total: any list
of words answers an instruction with the words after it, or a rejection by name.
-/

namespace Sys2Proof

/-- The 16 rows of the opcode map (R85), in the order of its opcode bytes. -/
inductive Opcode where
  | ldMem | st | lad | ldReg | adda | suba | andMem | andReg | cpaMem | cpaReg | jmi | jze | jump | jpl | ret | svc
deriving DecidableEq, Repr

/-- The opcode map is closed: these rows and no others (R85, R86). -/
def Opcode.all : List Opcode :=
  [.ldMem, .st, .lad, .ldReg, .adda, .suba, .andMem, .andReg, .cpaMem, .cpaReg, .jmi, .jze, .jump, .jpl, .ret, .svc]

/-- The opcode byte of each row (R85). -/
def Opcode.byte : Opcode → OpByte
  | .ldMem => 0x10
  | .st => 0x11
  | .lad => 0x12
  | .ldReg => 0x14
  | .adda => 0x20
  | .suba => 0x25
  | .andMem => 0x30
  | .andReg => 0x34
  | .cpaMem => 0x40
  | .cpaReg => 0x44
  | .jmi => 0x61
  | .jze => 0x63
  | .jump => 0x64
  | .jpl => 0x65
  | .ret => 0x81
  | .svc => 0xFF

/-- The length in words, fixed by the opcode alone (R81). -/
def Opcode.words : Opcode → Nat
  | .ldReg => 1
  | .suba => 1
  | .andReg => 1
  | .cpaReg => 1
  | .ret => 1
  | .ldMem => 2
  | .st => 2
  | .lad => 2
  | .adda => 2
  | .andMem => 2
  | .cpaMem => 2
  | .jmi => 2
  | .jze => 2
  | .jump => 2
  | .jpl => 2
  | .svc => 3

/-- The row with this opcode byte, if there is one (R85, R122). -/
def Opcode.ofByte (b : OpByte) : Option Opcode := Opcode.all.find? (fun op => decide (op.byte = b))

/-- Bits 15..8 of the first word, the opcode byte (R80). -/
def opcodeOf (w0 : Word) : OpByte := w0.extractLsb' 8 8

/-- Bits 7..4 of the first word: r1, or unused (R80). -/
def field1 (w0 : Word) : RegField := w0.extractLsb' 4 4

/-- Bits 3..0 of the first word: r2, the index register, or the SVC type (R80). -/
def field2 (w0 : Word) : RegField := w0.extractLsb' 0 4

/-- Why a list of words is no instruction. -/
inductive Reject where
  /-- The opcode byte is not in the map (R86). -/
  | unimplementedOpcode (op : OpByte)
  /-- Opcode 0xFF whose bits 7..0 are not 0x02 (R88). -/
  | unsupportedSvc (w0 : Word)
  /-- Word number `k` of the instruction (0 is the first) is not in the list. -/
  | missingWord (k : Nat)
deriving DecidableEq, Repr

/-- What the first word alone decides: the row of the map, or its rejection (R86, R88, R91). -/
def decodeFirst (w0 : Word) : Except Reject Opcode :=
  match Opcode.ofByte (opcodeOf w0) with
  | none => .error (.unimplementedOpcode (opcodeOf w0))
  | some op =>
    if op = .svc ∧ ¬ (field1 w0 = 0 ∧ field2 w0 = Config.svcOutputType) then .error (.unsupportedSvc w0)
    else .ok op

/-- The instruction of a row with its words (R82 to R84). A row shorter than three words uses only its own words. -/
def Opcode.instr (op : Opcode) (w0 w1 w2 : Word) : Instr :=
  match op with
  | .ldMem => .ldMem (field1 w0) w1 (field2 w0)
  | .st => .st (field1 w0) w1 (field2 w0)
  | .lad => .lad (field1 w0) w1 (field2 w0)
  | .ldReg => .ldReg (field1 w0) (field2 w0)
  | .adda => .adda (field1 w0) w1 (field2 w0)
  | .suba => .suba (field1 w0) (field2 w0)
  | .andMem => .andMem (field1 w0) w1 (field2 w0)
  | .andReg => .andReg (field1 w0) (field2 w0)
  | .cpaMem => .cpaMem (field1 w0) w1 (field2 w0)
  | .cpaReg => .cpaReg (field1 w0) (field2 w0)
  | .jmi => .jmi w1 (field2 w0)
  | .jze => .jze w1 (field2 w0)
  | .jump => .jump w1 (field2 w0)
  | .jpl => .jpl w1 (field2 w0)
  | .ret => .ret
  | .svc => .svc w1 w2

/-- The instruction at the head of a list of words, with the words after it (R91). -/
def decode : List Word → Except Reject (Instr × List Word)
  | [] => .error (.missingWord 0)
  | w0 :: rest =>
    match decodeFirst w0 with
    | .error r => .error r
    | .ok op =>
      if rest.length + 1 < op.words then .error (.missingWord (rest.length + 1))
      else .ok (op.instr w0 (rest.getD 0 0) (rest.getD 1 0), rest.drop (op.words - 1))

/-- First-word packing, `opcode<<8 | f1<<4 | f2` (R80, R103). -/
def packWord (op : Opcode) (f1 f2 : RegField) : Word := op.byte ++ f1 ++ f2

/-- The words of an instruction (R82 to R84). Bits an instruction does not use are packed as 0, as the assembler
packs them (R103). DESIGN CHOICE, safe (log entry 9). -/
def encode : Instr → List Word
  | .ldMem r1 adr x => [packWord .ldMem r1 x, adr]
  | .st r1 adr x => [packWord .st r1 x, adr]
  | .lad r1 adr x => [packWord .lad r1 x, adr]
  | .ldReg r1 r2 => [packWord .ldReg r1 r2]
  | .adda r1 adr x => [packWord .adda r1 x, adr]
  | .suba r1 r2 => [packWord .suba r1 r2]
  | .andMem r1 adr x => [packWord .andMem r1 x, adr]
  | .andReg r1 r2 => [packWord .andReg r1 r2]
  | .cpaMem r1 adr x => [packWord .cpaMem r1 x, adr]
  | .cpaReg r1 r2 => [packWord .cpaReg r1 r2]
  | .jmi adr x => [packWord .jmi 0 x, adr]
  | .jze adr x => [packWord .jze 0 x, adr]
  | .jump adr x => [packWord .jump 0 x, adr]
  | .jpl adr x => [packWord .jpl 0 x, adr]
  | .ret => [packWord .ret 0 0]
  | .svc dp lp => [packWord .svc 0 Config.svcOutputType, dp, lp]

/-- The bits of the first word that the instruction examines: all of them, but for bits 7..4 of the jumps and bits
7..0 of RET (R87). -/
def Instr.examinedBits : Instr → Word
  | .ldMem _ _ _ => 0xFFFF
  | .st _ _ _ => 0xFFFF
  | .lad _ _ _ => 0xFFFF
  | .ldReg _ _ => 0xFFFF
  | .adda _ _ _ => 0xFFFF
  | .suba _ _ => 0xFFFF
  | .andMem _ _ _ => 0xFFFF
  | .andReg _ _ => 0xFFFF
  | .cpaMem _ _ _ => 0xFFFF
  | .cpaReg _ _ => 0xFFFF
  | .jmi _ _ => 0xFF0F
  | .jze _ _ => 0xFF0F
  | .jump _ _ => 0xFF0F
  | .jpl _ _ => 0xFF0F
  | .ret => 0xFF00
  | .svc _ _ => 0xFFFF

/-- The three words of an instruction numbered as spec/opcode_table.json numbers its bits: bit 0 is the least
significant bit of the first word, and every bit from `nbits` up is 0. -/
def tableWords (nbits w : Nat) : List Word :=
  let v := w % 2 ^ nbits
  [BitVec.ofNat 16 v, BitVec.ofNat 16 (v / 2 ^ 16), BitVec.ofNat 16 (v / 2 ^ 32)]

/-- The instruction the decoder reads from table word `w` of `nbits` bits. -/
def decodeTableWord (nbits w : Nat) : Option Instr :=
  match decode (tableWords nbits w) with
  | .ok (i, _) => some i
  | .error _ => none

end Sys2Proof
end

