-- ==== Sys2Proof/Machine/State.lean ====
section
/-!
DEFINITION. The architectural state of the unit (R20: "exactly the following"), as plain data, and the state after
reset (R260). The operations over it are in Machine/Ops.lean.
-/

namespace Sys2Proof.Machine

/-- Storage with a written marker (R20, R31): what it holds, and whether it holds a value. While the marker is clear
the first component is never read by an instruction (R12). -/
structure Marked (α : Type) where
  value : α
  written : Bool
deriving DecidableEq, Repr

/-- The condition flags: overflow, sign, zero (R26). -/
structure Flags where
  of : Marked Bool
  sf : Marked Bool
  zf : Marked Bool
deriving DecidableEq, Repr

/-- The Word Store: the written addresses with their words. Canonical form (`Memory.wf`): addresses strictly rising
and below 65536. An unlisted address holds no value (R51, R39). -/
abbrev Memory := List (Nat × Word)

/-- A register or flag that the UnwrittenRegister record can name (R230, R235). -/
inductive UnitRegister where
  | gr (i : Fin 8)
  | sf
  | zf
deriving DecidableEq, Repr

/-- The fatal faults of the unit, each with the detail it records (R230). Raising one is a next state with status
Faulted (R240); it is not a stop of the model. -/
inductive FaultCause where
  /-- Code 1: opcode byte not in the map; raised by the step after the fetch of w0 (R231). -/
  | unimplementedOpcode (op : OpByte)
  /-- Code 2: an accessed register field holds 8 to 15 (R233). -/
  | undefinedRegister (field : RegField)
  /-- Code 3: a read or fetch of an address that holds no value (R234). -/
  | uninitializedMemory (addr : Word)
  /-- Code 4: a read of a register or flag that holds no value (R235). -/
  | unwrittenRegister (which : UnitRegister)
  /-- Code 5: opcode 0xFF with bits 7..0 not 0x02 (R236). -/
  | unsupportedSvc (w0 : Word)
  /-- Code 6: SVC length word 0x8000 or above (R237). -/
  | invalidOutputLength (length : Word)
  /-- Code 7: non-ASCII input at the Gateway's read; reserved, never raised by the unit (R238). -/
  | invalidExternalInput
deriving DecidableEq, Repr

/-- The fault record {code, pc, w0, detail} (R230): code and detail are the cause's constructor and its argument;
`w0` is absent when the first word was not fetched. -/
structure FaultRecord where
  cause : FaultCause
  pc : Word
  w0 : Option Word
deriving DecidableEq, Repr

/-- The run status (R30). -/
inductive Status where
  | running
  | halted
  | faulted (record : FaultRecord)
deriving DecidableEq, Repr

/-- The whole state of the unit (R20). -/
structure State where
  /-- Address of the next instruction's first word (R21). -/
  pc : Word
  /-- GR0 to GR7, each with its written marker (R23, R31). -/
  gr : Vector (Marked Word) 8
  /-- OF, SF, ZF, each with its written marker (R26, R31). -/
  flags : Flags
  /-- The Word Store as the unit sees it (R50, R51). -/
  mem : Memory
  /-- Run status (R30). -/
  status : Status
  /-- Output transactions committed since reset, oldest first (R32). -/
  outputs : List (List Word)
deriving DecidableEq, Repr

/-- Faults that stop the model. There is none: every run-time error of the unit has an entry the spec describes (R240)
and is taken as a next state, and no address is outside the address space (R54). Nobody raises it; safe. -/
inductive Fault where
deriving DecidableEq, Repr

/-- Refusals of the model. -/
inductive Refusal where
  /-- An instruction without a meaning, raised by the arm of `exec` that names it. Every instruction has a meaning, so
  no arm raises it; safe. -/
  | notModelled (mnemonic : String)
deriving DecidableEq, Repr

/-- A register that holds no value (R37). DESIGN CHOICE, unsafe (log entry 1): the value beside the clear marker is 0. -/
def emptyRegister : Marked Word := ⟨0, false⟩

/-- A flag that holds no value (R38). DESIGN CHOICE, unsafe (log entry 2): the value beside the clear marker is 0. -/
def emptyFlag : Marked Bool := ⟨false, false⟩

/-- The state after reset with ENTRY_PC = `entry` (R260): nothing holds a value, status Running, no output. -/
def State.resetAt (entry : Word) : State where
  pc := entry
  gr := Vector.replicate 8 emptyRegister
  flags := ⟨emptyFlag, emptyFlag, emptyFlag⟩
  mem := []
  status := .running
  outputs := []

/-- The state after reset with the default ENTRY_PC, 0x0000 (R36, R260). DESIGN CHOICE (log entry 3). -/
def State.reset : State := State.resetAt Config.entryPcDefault

end Sys2Proof.Machine
end

