-- ==== Sys2Proof/Machine/Ops.lean ====
section
/-!
DEFINITION. The named operations over the state: the Word Store, the field updates, register and memory access with
their checks (R12, R13), taking a fault and committing (R128, R240), advancing, jumping, halting, output (R14). A line
of the spec's pseudocode that can raise is an `Except FaultCause`; an instruction's writes are built on the state before
it and take effect only in `commit` (R15).
-/

namespace Sys2Proof.Machine

/-! ### The Word Store -/

/-- The word held at an address, or no value (R51). -/
def Memory.read : Memory → Word → Option Word
  | [], _ => none
  | (k, w) :: m, a => if k = a.toNat then some w else Memory.read m a

/-- Make an address hold a word and mark it written (R53), keeping the addresses in rising order. -/
def Memory.write : Memory → Word → Word → Memory
  | [], a, v => [(a.toNat, v)]
  | (k, w) :: m, a, v =>
    if a.toNat < k then (a.toNat, v) :: (k, w) :: m
    else if k = a.toNat then (k, v) :: m
    else (k, w) :: Memory.write m a v

/-- Addresses strictly rising, from `lo` up, and inside the address space (R50). -/
def Memory.wfFrom (lo : Nat) : Memory → Bool
  | [] => true
  | (k, _) :: m => decide (lo ≤ k) && decide (k < 65536) && Memory.wfFrom (k + 1) m

/-- The canonical form of the Word Store. An unlisted address holds no value, so no entry equals what it reads as. -/
def Memory.wf (m : Memory) : Bool := Memory.wfFrom 0 m

/-- Write (address, word) pairs in order: the image load of R261. -/
def Memory.writeAll (m : Memory) : List (Word × Word) → Memory
  | [] => m
  | (a, v) :: rest => Memory.writeAll (m.write a v) rest

/-! ### Updates of one part of the state -/

def State.setPc (s : State) (pc : Word) : State := { s with pc := pc }

/-- The register holds the word from now on; its marker is set (R31). -/
def State.setReg (s : State) (i : Fin 8) (v : Word) : State := { s with gr := s.gr.set i ⟨v, true⟩ }

def State.putFlags (s : State) (f : Flags) : State := { s with flags := f }

def State.setMem (s : State) (m : Memory) : State := { s with mem := m }

def State.setStatus (s : State) (st : Status) : State := { s with status := st }

/-- One transaction at the end of the output history (R32, R211). -/
def State.appendOutput (s : State) (ws : List Word) : State := { s with outputs := s.outputs ++ [ws] }

/-! ### Register access (R12, R233, R235) -/

/-- The index check of every register access: 0 to 7, else UndefinedRegister (R233). -/
def registerIndex (f : RegField) : Except FaultCause (Fin 8) :=
  if h : f.toNat < 8 then .ok ⟨f.toNat, h⟩ else .error (.undefinedRegister f)

/-- `x[f]`: the index is checked before the written marker (R12, R129). -/
def readReg (f : RegField) (s : State) : Except FaultCause Word := do
  let i ← registerIndex f
  if s.gr[i].written then .ok s.gr[i].value else .error (.unwrittenRegister (.gr i))

/-- `x[f] <- v`: the index is checked, the marker is set (R12, R31). -/
def writeReg (f : RegField) (v : Word) (s : State) : Except FaultCause State := do
  let i ← registerIndex f
  .ok (s.setReg i v)

/-! ### Memory access (R13, R52, R53) -/

/-- `MemRead(a, 1)`: an address that holds no value raises UninitializedMemory (R52). -/
def memRead (a : Word) (s : State) : Except FaultCause Word :=
  match s.mem.read a with
  | some w => .ok w
  | none => .error (.uninitializedMemory a)

/-- `MemWrite(a, 1, v)`: never faults (R53). -/
def memWrite (a v : Word) (s : State) : State := s.setMem (s.mem.write a v)

/-- `n` consecutive words from address `a` up, in ascending order; addresses wrap (R54, R210). -/
def readBlock (a : Word) : Nat → State → Except FaultCause (List Word)
  | 0, _ => .ok []
  | n + 1, s => do
    let w ← memRead a s
    let ws ← readBlock (a + 1) n s
    .ok (w :: ws)

/-! ### The ends of an instruction -/

/-- Advance by the instruction's length: PC becomes `trunc_16(pc + n)` (R22, R127). -/
def advance (n : Nat) (s : State) : State := s.setPc (s.pc + BitVec.ofNat 16 n)

/-- Jump: PC becomes the target (R127). -/
def jumpTo (t : Word) (s : State) : State := s.setPc t

/-- `halt`: status Halted, nothing else changes (R14, R198). -/
def halt (s : State) : State := s.setStatus .halted

/-- `Output(ws)`: one write transaction on the output port, which the Gateway takes at once (R44). -/
def output (ws : List Word) (s : State) : State := s.appendOutput ws

/-- The numeric code of a fault (R230). -/
def FaultCause.code : FaultCause → Nat
  | .unimplementedOpcode _ => 1
  | .undefinedRegister _ => 2
  | .uninitializedMemory _ => 3
  | .unwrittenRegister _ => 4
  | .unsupportedSvc _ => 5
  | .invalidOutputLength _ => 6
  | .invalidExternalInput => 7

/-- Taking a fault (R240): nothing is committed, PC keeps the address of the first word, the status becomes
Faulted(record). The record's `w0` is the word at PC, which is the first word if it was fetched and absent if it could
not be. DEDUCED, safe (log entries 6 and 7). There is no return from a fault (R241): only reset leaves it
(`hostReset`, Machine/Ports.lean). -/
def takeFault (c : FaultCause) (s : State) : State := s.setStatus (.faulted ⟨c, s.pc, s.mem.read s.pc⟩)

/-- The end of an instruction begun in state `s` (R128): all its writes together, or a fault and none of them. -/
def commit (s : State) (r : Except FaultCause State) : Host.Outcome State Fault Refusal :=
  match r with
  | .ok s' => .next s'
  | .error c => .next (takeFault c s)

end Sys2Proof.Machine
end

