-- ==== Sys2Proof/Machine/Operands.lean ====
section
/-!
DEFINITION. The readings of a word as an integer (R11) and the addressing datapath (R124): the two addressing modes,
direct and indexed.
-/

namespace Sys2Proof.Machine

/-- `zext_16(w)`: the unsigned integer, 0 to 65535 (R11). -/
def zext16 (w : Word) : Int := w.toNat

/-- `sext_16(w)`: the two's-complement integer, -32768 to 32767 (R11). -/
def sext16 (w : Word) : Int := if w.toNat < 0x8000 then w.toNat else w.toNat - 0x10000

/-- `trunc_16(i)`: the integer modulo 65536 (R11). -/
def trunc16 (i : Int) : Word := BitVec.ofInt 16 i

/-- `EA(xf, adr)`: the address word itself when the index field is 0, else its sum with the index register modulo
65536 (R124). -/
def effectiveAddress (xf : RegField) (adr : Word) (s : State) : Except FaultCause Word :=
  if xf = 0 then .ok adr
  else do
    let x ← readReg xf s
    .ok (trunc16 (zext16 adr + zext16 x))

end Sys2Proof.Machine
end

