-- ==== Sys2Proof/Machine/Flags.lean ====
section
/-!
DEFINITION. The shared flag helper (R125) and the flag reads of the conditional jumps (R12, R235).
-/

namespace Sys2Proof.Machine

/-- The flags of a signed result: OF 0 always, SF when negative, ZF when zero, all three marked written (R125, R26). -/
def flagsOf (r : Int) : Flags := ⟨⟨false, true⟩, ⟨decide (r < 0), true⟩, ⟨decide (r = 0), true⟩⟩

/-- `SetFlags(r)` (R125). -/
def setFlags (r : Int) (s : State) : State := s.putFlags (flagsOf r)

/-- A read of SF; unwritten raises UnwrittenRegister(SF) (R12, R235). -/
def readSf (s : State) : Except FaultCause Bool :=
  if s.flags.sf.written then .ok s.flags.sf.value else .error (.unwrittenRegister .sf)

/-- A read of ZF; unwritten raises UnwrittenRegister(ZF) (R12, R235). -/
def readZf (s : State) : Except FaultCause Bool :=
  if s.flags.zf.written then .ok s.flags.zf.value else .error (.unwrittenRegister .zf)

end Sys2Proof.Machine
end

