-- ==== Sys2Proof/Machine/ArithLogic.lean ====
section
/-!
DEFINITION. Arithmetic, logical and compare instructions (42_arith_logic.md), over two shared shapes: an ALU operation
on r1 and the memory operand, and one on r1 and r2. The word operations and the result each passes to SetFlags stand
first (R126, R176).
-/

namespace Sys2Proof.Machine

/-- The sum kept by ADDA: the exact sum, low 16 bits (R170, R176). -/
def addWords (a b : Word) : Word := trunc16 (zext16 a + zext16 b)

/-- The difference kept by SUBA: the exact difference, low 16 bits (R171, R176). -/
def subWords (a b : Word) : Word := trunc16 (zext16 a - zext16 b)

/-- The exact difference CPA passes to SetFlags, never reduced (R126, R174). -/
def compareWords (a b : Word) : Int := sext16 a - sext16 b

/-- Write an ALU result to r1 and set the flags from the word written (R126), then advance by the length. -/
def writeResult (r1 : RegField) (res : Word) (n : Nat) (s : State) : Except FaultCause State := do
  let t ← writeReg r1 res s
  .ok (advance n (setFlags (sext16 res) t))

/-- The operands of an RM instruction that reads r1: the effective address, then r1, then memory (R170, R172, R174). -/
def memOperands (r1 : RegField) (adr : Word) (x : RegField) (s : State) : Except FaultCause (Word × Word) := do
  let ea ← effectiveAddress x adr s
  let a ← readReg r1 s
  let b ← memRead ea s
  .ok (a, b)

/-- The operands of an RR instruction that reads r1: r1, then r2 (R171, R173, R175). -/
def regOperands (r1 r2 : RegField) (s : State) : Except FaultCause (Word × Word) := do
  let a ← readReg r1 s
  let b ← readReg r2 s
  .ok (a, b)

/-- `ADDA r1,adr,x` (R170). -/
def execAdda (r1 : RegField) (adr : Word) (x : RegField) (s : State) : Host.Outcome State Fault Refusal :=
  commit s do
    let (a, b) ← memOperands r1 adr x s
    writeResult r1 (addWords a b) 2 s

/-- `SUBA r1,r2` (R171). -/
def execSuba (r1 r2 : RegField) (s : State) : Host.Outcome State Fault Refusal :=
  commit s do
    let (a, b) ← regOperands r1 r2 s
    writeResult r1 (subWords a b) 1 s

/-- `AND r1,adr,x` (R172). -/
def execAndMem (r1 : RegField) (adr : Word) (x : RegField) (s : State) : Host.Outcome State Fault Refusal :=
  commit s do
    let (a, b) ← memOperands r1 adr x s
    writeResult r1 (a &&& b) 2 s

/-- `AND r1,r2` (R173). -/
def execAndReg (r1 r2 : RegField) (s : State) : Host.Outcome State Fault Refusal :=
  commit s do
    let (a, b) ← regOperands r1 r2 s
    writeResult r1 (a &&& b) 1 s

/-- `CPA r1,adr,x` (R174): sets the flags, writes no register. -/
def execCpaMem (r1 : RegField) (adr : Word) (x : RegField) (s : State) : Host.Outcome State Fault Refusal :=
  commit s do
    let (a, b) ← memOperands r1 adr x s
    .ok (advance 2 (setFlags (compareWords a b) s))

/-- `CPA r1,r2` (R175): sets the flags, writes no register. -/
def execCpaReg (r1 r2 : RegField) (s : State) : Host.Outcome State Fault Refusal :=
  commit s do
    let (a, b) ← regOperands r1 r2 s
    .ok (advance 1 (setFlags (compareWords a b) s))

end Sys2Proof.Machine
end

