-- ==== Sys2Proof/Machine/Control.lean ====
section
/-!
DEFINITION. Control-transfer instructions and halt (43_control.md). A jump computes its target, index register and
all, before it reads a flag, taken or not (R190 to R193).
-/

namespace Sys2Proof.Machine

/-- Go to the target when the condition holds, else advance by the two words of a jump (R127, R194). -/
def jumpIf (taken : Bool) (t : Word) (s : State) : State := if taken then jumpTo t s else advance 2 s

/-- `JMI adr,x` (R190): taken when SF = 1. -/
def execJmi (adr : Word) (x : RegField) (s : State) : Host.Outcome State Fault Refusal :=
  commit s do
    let t ← effectiveAddress x adr s
    let sf ← readSf s
    .ok (jumpIf sf t s)

/-- `JZE adr,x` (R191): taken when ZF = 1. -/
def execJze (adr : Word) (x : RegField) (s : State) : Host.Outcome State Fault Refusal :=
  commit s do
    let t ← effectiveAddress x adr s
    let zf ← readZf s
    .ok (jumpIf zf t s)

/-- `JUMP adr,x` (R192): always taken; reads no flag. -/
def execJump (adr : Word) (x : RegField) (s : State) : Host.Outcome State Fault Refusal :=
  commit s do
    let t ← effectiveAddress x adr s
    .ok (jumpTo t s)

/-- `JPL adr,x` (R193): taken when SF = 0 and ZF = 0; SF is read before ZF. -/
def execJpl (adr : Word) (x : RegField) (s : State) : Host.Outcome State Fault Refusal :=
  commit s do
    let t ← effectiveAddress x adr s
    let sf ← readSf s
    let zf ← readZf s
    .ok (jumpIf (!sf && !zf) t s)

/-- `RET` (R198): the status becomes Halted and nothing else changes, PC included. -/
def execRet (s : State) : Host.Outcome State Fault Refusal :=
  commit s (.ok (halt s))

end Sys2Proof.Machine
end

