-- ==== Sys2Proof/Machine/LoadStore.lean ====
section
/-!
DEFINITION. Load, store and load-address instructions (41_load_store.md). Each body is the rule's pseudocode after the
fetch of its words; lines stand in the rule's order, which fixes the fault reported (R129).
-/

namespace Sys2Proof.Machine

/-- `LD r1,adr,x` (R150). -/
def execLdMem (r1 : RegField) (adr : Word) (x : RegField) (s : State) : Host.Outcome State Fault Refusal :=
  commit s do
    let ea ← effectiveAddress x adr s
    let v ← memRead ea s
    let t ← writeReg r1 v s
    .ok (advance 2 (setFlags (sext16 v) t))

/-- `ST r1,adr,x` (R151). -/
def execSt (r1 : RegField) (adr : Word) (x : RegField) (s : State) : Host.Outcome State Fault Refusal :=
  commit s do
    let ea ← effectiveAddress x adr s
    let v ← readReg r1 s
    .ok (advance 2 (memWrite ea v s))

/-- `LAD r1,adr,x` (R152). -/
def execLad (r1 : RegField) (adr : Word) (x : RegField) (s : State) : Host.Outcome State Fault Refusal :=
  commit s do
    let ea ← effectiveAddress x adr s
    let t ← writeReg r1 ea s
    .ok (advance 2 t)

/-- `LD r1,r2` (R153). -/
def execLdReg (r1 r2 : RegField) (s : State) : Host.Outcome State Fault Refusal :=
  commit s do
    let v ← readReg r2 s
    let t ← writeReg r1 v s
    .ok (advance 1 (setFlags (sext16 v) t))

end Sys2Proof.Machine
end

