-- ==== Sys2Proof/Machine/Supervisor.lean ====
section
/-!
DEFINITION. The supervisor call (44_svc.md). The check of the first word's low byte and the fetch of the two pointer
words come before it, in the fetch (Machine/Fetch.lean).
-/

namespace Sys2Proof.Machine

/-- The number of words to output: the length word read as a signed number; a negative one is refused with
InvalidOutputLength (R210, R237). -/
def outputLength (lw : Word) : Except FaultCause Nat :=
  if sext16 lw < 0 then .error (.invalidOutputLength lw) else .ok (sext16 lw).toNat

/-- `SVC` output (R210): the length through the length pointer, then the data words in ascending order, then one
output transaction. -/
def execSvc (dp lp : Word) (s : State) : Host.Outcome State Fault Refusal :=
  commit s do
    let lw ← memRead lp s
    let n ← outputLength lw
    let ws ← readBlock dp n s
    .ok (advance 3 (output ws s))

end Sys2Proof.Machine
end

