-- ==== Sys2Proof/Machine/Dispatch.lean ====
section
/-!
DEFINITION. One arm per instruction (R120: "one rule per opcode").
-/

namespace Sys2Proof.Machine

def exec (i : Instr) (s : State) : Host.Outcome State Fault Refusal :=
  match i with
  | .ldMem r1 adr x => Sys2Proof.Machine.execLdMem r1 adr x s
  | .st r1 adr x => Sys2Proof.Machine.execSt r1 adr x s
  | .lad r1 adr x => Sys2Proof.Machine.execLad r1 adr x s
  | .ldReg r1 r2 => Sys2Proof.Machine.execLdReg r1 r2 s
  | .adda r1 adr x => Sys2Proof.Machine.execAdda r1 adr x s
  | .suba r1 r2 => Sys2Proof.Machine.execSuba r1 r2 s
  | .andMem r1 adr x => Sys2Proof.Machine.execAndMem r1 adr x s
  | .andReg r1 r2 => Sys2Proof.Machine.execAndReg r1 r2 s
  | .cpaMem r1 adr x => Sys2Proof.Machine.execCpaMem r1 adr x s
  | .cpaReg r1 r2 => Sys2Proof.Machine.execCpaReg r1 r2 s
  | .jmi adr x => Sys2Proof.Machine.execJmi adr x s
  | .jze adr x => Sys2Proof.Machine.execJze adr x s
  | .jump adr x => Sys2Proof.Machine.execJump adr x s
  | .jpl adr x => Sys2Proof.Machine.execJpl adr x s
  | .ret => Sys2Proof.Machine.execRet s
  | .svc dp lp => Sys2Proof.Machine.execSvc dp lp s

end Sys2Proof.Machine
end

