-- ==== Sys2Proof/Machine/Fetch.lean ====
section
/-!
DEFINITION. Fetch and decode (R121 to R123): the first word at PC, the opcode check, then the operand words at pc + 1
and pc + 2. Also the placing of a program's words for the host's probe.
-/

namespace Sys2Proof.Machine

/-- The fault of a rejected instruction at `pc` (R231, R234, R236). -/
def rejectCause (pc : Word) : Reject → FaultCause
  | .unimplementedOpcode op => .unimplementedOpcode op
  | .unsupportedSvc w0 => .unsupportedSvc w0
  | .missingWord k => .uninitializedMemory (pc + BitVec.ofNat 16 k)

/-- A rejection by the decoder, as the fault the step raises. -/
def orFault {α : Type} (pc : Word) (r : Except Reject α) : Except FaultCause α :=
  match r with
  | .ok a => .ok a
  | .error e => .error (rejectCause pc e)

/-- The instruction at PC, or the first fault of its fetch and decode in the order w0, opcode, w1, w2 (R120, R129). -/
def fetch (s : State) : Except FaultCause Instr := do
  let w0 ← memRead s.pc s
  let op ← orFault s.pc (decodeFirst w0)
  let ws ← readBlock (s.pc + 1) (op.words - 1) s
  let (i, _) ← orFault s.pc (decode (w0 :: ws))
  .ok i

/-- Words stored at successive addresses from `a` up. -/
def placeWords (m : Memory) (a : Word) : List Word → Memory
  | [] => m
  | w :: ws => placeWords (m.write a w) (a + 1) ws

end Sys2Proof.Machine
end

