-- ==== Sys2Proof/Machine/Step.lean ====
section
/-!
DEFINITION. The step (R120) and the host's probe of it.
-/

namespace Sys2Proof.Machine

/-- One step: nothing when stopped (R132), else fetch, decode, execute and commit, or the fault of the fetch. -/
def step (s : State) : Host.Outcome State Fault Refusal :=
  match s.status with
  | .halted => .next s
  | .faulted _ => .next s
  | .running =>
    match fetch s with
    | .ok i => exec i s
    | .error c => commit s (.error c)

/-- The state with an instruction placed where the next step fetches it, numbered as the opcode table numbers its
bits, and with status Running, without which no step fetches (log entry 5). -/
def State.withFetchWord (s : State) (nbits w : Nat) : State :=
  (s.setMem (placeWords s.mem s.pc (tableWords nbits w))).setStatus .running

end Sys2Proof.Machine
end

