-- ==== Sys2Proof/Machine/Assembler.lean ====
section
/-!
DEFINITION. The two-pass assembler (30_encoding.md section 5, R95 to R112): source lines to a memory image. Toolchain
context (R6): nothing of the unit depends on this file; it says which words a program text spells.
-/

namespace Sys2Proof.Assembler

/-- Text of the source program, character by character. -/
abbrev Text := List Char

/-- A source line, the ordered 4-tuple of R95; an empty field is the empty text. -/
structure SourceLine where
  label : Text
  mnemonic : Text
  operandField : Text
  comment : Text
deriving DecidableEq, Repr

/-- The machine mnemonics (R97). -/
inductive MachineMnemonic where
  | and | ld | st | cpa | jze | jmi | jpl | suba | adda | jump | ret | svc | lad
deriving DecidableEq, Repr

/-- The mnemonic classes of R97: machine instruction, pseudo-instruction or the macro OUT. -/
inductive Mnemonic where
  | machine (m : MachineMnemonic)
  | startLine
  | endLine
  | dc
  | ds
  | out
deriving DecidableEq, Repr

/-- Why a program does not assemble; the mnemonic, token, label or address involved is named (R112). -/
inductive CompileError where
  /-- The mnemonic field is empty or names nothing of R97. -/
  | undefinedInstruction (mnemonic : Text)
  /-- More than three operand tokens (R96). -/
  | tooManyOperands (mnemonic : Text)
  /-- An operand token that begins like a constant or literal and is none (R99, R100, R104). -/
  | malformedSecondWord (token : Text)
  /-- The opcode table has no entry under the mnemonic and this length (R101). -/
  | noOpcode (mnemonic : Text) (length : Nat)
  /-- The operands have none of the shapes of R102, or a DC or DS operand is malformed (R107, R108). -/
  | malformedOperand (mnemonic : Text)
  /-- A referenced label no line defines (R110). -/
  | undefinedLabel (label : Text)
  /-- A referenced label whose address is past 0xFFFF (log entry 17). -/
  | labelPastEnd (label : Text)
  /-- Code, data and literal pool pass address 0xFFFF (R105). -/
  | imageTooLarge (address : Nat)
deriving DecidableEq, Repr

/-! ### Tokens (R96 to R100) -/

/-- The mnemonics by name, in upper case only (R97). -/
def mnemonicTable : List (Text × Mnemonic) :=
  [(['A', 'N', 'D'], .machine .and), (['L', 'D'], .machine .ld), (['S', 'T'], .machine .st),
   (['C', 'P', 'A'], .machine .cpa), (['J', 'Z', 'E'], .machine .jze), (['J', 'M', 'I'], .machine .jmi),
   (['J', 'P', 'L'], .machine .jpl), (['S', 'U', 'B', 'A'], .machine .suba), (['A', 'D', 'D', 'A'], .machine .adda),
   (['J', 'U', 'M', 'P'], .machine .jump), (['R', 'E', 'T'], .machine .ret), (['S', 'V', 'C'], .machine .svc),
   (['L', 'A', 'D'], .machine .lad), (['S', 'T', 'A', 'R', 'T'], .startLine), (['E', 'N', 'D'], .endLine),
   (['D', 'C'], .dc), (['D', 'S'], .ds), (['O', 'U', 'T'], .out)]

/-- The first entry of a table under a name. -/
def lookupText {α : Type} (table : List (Text × α)) (name : Text) : Option α :=
  (table.find? (fun e => decide (e.1 = name))).map (fun e => e.2)

/-- A mnemonic, or the 'undefined instruction' error (R97). -/
def parseMnemonic (t : Text) : Except CompileError Mnemonic :=
  match lookupText mnemonicTable t with
  | some m => .ok m
  | none => .error (.undefinedInstruction t)

/-- Comma-separated tokens. -/
def splitCommas : Text → List Text
  | [] => [[]]
  | c :: cs =>
    if c = ',' then [] :: splitCommas cs
    else
      match splitCommas cs with
      | [] => [[c]]
      | t :: ts => (c :: t) :: ts

/-- A token without the spaces around it (R96). -/
def trimSpaces (t : Text) : Text :=
  ((t.dropWhile (fun c => decide (c = ' '))).reverse.dropWhile (fun c => decide (c = ' '))).reverse

/-- The operand list: truncated at the first semicolon, split, trimmed and normalised to three slots (R96). -/
def operandSlots (line : SourceLine) : Except CompileError (Text × Text × Text) :=
  match (splitCommas (line.operandField.takeWhile (fun c => decide (c ≠ ';')))).map trimSpaces with
  | [] => .ok ([], [], [])
  | [a] => .ok (a, [], [])
  | [a, b] => .ok (a, b, [])
  | [a, b, c] => .ok (a, b, c)
  | _ :: _ :: _ :: _ :: _ => .error (.tooManyOperands line.mnemonic)

/-- The value of a decimal digit. -/
def decimalDigit (c : Char) : Option Nat :=
  if '0'.toNat ≤ c.toNat ∧ c.toNat ≤ '9'.toNat then some (c.toNat - '0'.toNat) else none

/-- The value of a hexadecimal digit, in either case (R99). -/
def hexDigit (c : Char) : Option Nat :=
  match decimalDigit c with
  | some d => some d
  | none =>
    if 'A'.toNat ≤ c.toNat ∧ c.toNat ≤ 'F'.toNat then some (c.toNat - 'A'.toNat + 10)
    else if 'a'.toNat ≤ c.toNat ∧ c.toNat ≤ 'f'.toNat then some (c.toNat - 'a'.toNat + 10)
    else none

/-- The number the digits spell after the digits read so far. -/
def digitsValue (base : Nat) (digit : Char → Option Nat) : Nat → Text → Option Nat
  | acc, [] => some acc
  | acc, c :: cs =>
    match digit c with
    | some d => digitsValue base digit (acc * base + d) cs
    | none => none

/-- An optional minus and one or more decimal digits (R99). -/
def parseDecimal : Text → Option Int
  | [] => none
  | ['-'] => none
  | '-' :: ds => (digitsValue 10 decimalDigit 0 ds).map (fun n => -(n : Int))
  | ds => (digitsValue 10 decimalDigit 0 ds).map (fun n => (n : Int))

/-- A decimal constant: one in -32768 to 65535; outside that range the token is malformed (R99). -/
def decimalConstant (t : Text) : Option Int :=
  match parseDecimal t with
  | some i => if -32768 ≤ i ∧ i ≤ 65535 then some i else none
  | none => none

/-- A constant: `#` and 1 to 4 hexadecimal digits, or a decimal constant stored modulo 65536 (R99). -/
def parseConstant (t : Text) : Option Word :=
  match t with
  | '#' :: ds =>
    if 1 ≤ ds.length ∧ ds.length ≤ 4 then (digitsValue 16 hexDigit 0 ds).map (BitVec.ofNat 16) else none
  | _ => (decimalConstant t).map (BitVec.ofInt 16)

/-- A token that must be a constant: it begins with `#`, a digit or `-` (R99). -/
def looksConstant : Text → Bool
  | [] => false
  | c :: _ => decide (c = '#') || decide (c = '-') || (decimalDigit c).isSome

/-- The register names GR0 to GR7 (R98). -/
def registerName : Text → Option (Fin 8)
  | ['G', 'R', d] =>
    match decimalDigit d with
    | some n => if h : n < 8 then some ⟨n, h⟩ else none
    | none => none
  | _ => none

/-- What an operand slot holds. -/
inductive Operand where
  | absent
  | register (i : Fin 8)
  | constant (w : Word)
  | literal (w : Word)
  | label (t : Text)
deriving DecidableEq, Repr

/-- A token as an operand: register name, literal `=constant`, constant, else a label (R98 to R100, R104). -/
def parseOperand (t : Text) : Except CompileError Operand :=
  match t with
  | [] => .ok .absent
  | '=' :: c =>
    match parseConstant c with
    | some w => .ok (.literal w)
    | none => .error (.malformedSecondWord t)
  | _ =>
    match registerName t with
    | some i => .ok (.register i)
    | none =>
      if looksConstant t then
        match parseConstant t with
        | some w => .ok (.constant w)
        | none => .error (.malformedSecondWord t)
      else .ok (.label t)

/-- An address operand: constant, literal or label, that is, an operand present that is no register (R101). -/
def Operand.isAddress : Operand → Bool
  | .absent => false
  | .register _ => false
  | .constant _ => true
  | .literal _ => true
  | .label _ => true

/-! ### The words of a line (R101 to R109) -/

/-- A word a line emits: known, or 0 until a literal or a label is placed (R104). -/
inductive Emitted where
  | word (w : Word)
  | literalRef (value : Word)
  | labelRef (label : Text)
deriving DecidableEq, Repr

/-- The length of a machine-instruction line: 2 when an address operand is present, else 1 (R101). -/
def lineLength (o1 o2 o3 : Operand) : Nat := if o1.isAddress || o2.isAddress || o3.isAddress then 2 else 1

/-- The opcode under (mnemonic, length), as the source's table keys it (R85, R101). -/
def opcodeFor : MachineMnemonic → Nat → Option Opcode
  | .and, 1 => some .andReg
  | .and, 2 => some .andMem
  | .ld, 1 => some .ldReg
  | .ld, 2 => some .ldMem
  | .st, 2 => some .st
  | .cpa, 1 => some .cpaReg
  | .cpa, 2 => some .cpaMem
  | .jze, 2 => some .jze
  | .jmi, 2 => some .jmi
  | .jpl, 2 => some .jpl
  | .suba, 1 => some .suba
  | .adda, 2 => some .adda
  | .jump, 2 => some .jump
  | .ret, 1 => some .ret
  | .svc, 2 => some .svc
  | .lad, 2 => some .lad
  | _, _ => none

/-- The opcode lookup, "absence is fatal" (R101). -/
def lookupOpcode (name : Text) (m : MachineMnemonic) (n : Nat) : Except CompileError Opcode :=
  match opcodeFor m n with
  | some op => .ok op
  | none => .error (.noOpcode name n)

/-- The field value of a register (R82). -/
def fieldOf (i : Fin 8) : RegField := BitVec.ofNat 4 i.val

/-- The second word of an address operand: immediate, literal or label, in that priority (R104). -/
def secondWord : Operand → Option Emitted
  | .constant w => some (.word w)
  | .literal w => some (.literalRef w)
  | .label t => some (.labelRef t)
  | .absent => none
  | .register _ => none

/-- The index field of an optional index operand: 0 when absent; GR0 is refused (R102). -/
def indexField : Operand → Option RegField
  | .absent => some 0
  | .register i => if i.val = 0 then none else some (fieldOf i)
  | .constant _ => none
  | .literal _ => none
  | .label _ => none

/-- The operand shapes of the formats (R82 to R84). -/
inductive Shape where
  | registers
  | registerAddress
  | address
  | noOperand
deriving DecidableEq, Repr

/-- The operand shape of an opcode (R102). -/
def shapeOf : Opcode → Shape
  | .ldReg => .registers
  | .suba => .registers
  | .andReg => .registers
  | .cpaReg => .registers
  | .ldMem => .registerAddress
  | .st => .registerAddress
  | .lad => .registerAddress
  | .adda => .registerAddress
  | .andMem => .registerAddress
  | .cpaMem => .registerAddress
  | .jmi => .address
  | .jze => .address
  | .jump => .address
  | .jpl => .address
  | .svc => .address
  | .ret => .noOperand

/-- The words of operands that fit the opcode's shape, packed by R103; no answer for any other shape (R102). -/
def packOperands (op : Opcode) (o1 o2 o3 : Operand) : Option (List Emitted) :=
  match shapeOf op, o1, o2, o3 with
  | .registers, .register a, .register b, .absent => some [.word (packWord op (fieldOf a) (fieldOf b))]
  | .registerAddress, .register a, adr, x =>
    match secondWord adr, indexField x with
    | some e, some f => some [.word (packWord op (fieldOf a) f), e]
    | _, _ => none
  | .address, adr, x, .absent =>
    match secondWord adr, indexField x with
    | some e, some f => some [.word (packWord op 0 f), e]
    | _, _ => none
  | .noOperand, .absent, .absent, .absent => some [.word (packWord op 0 0)]
  | _, _, _, _ => none

/-- The words of a machine-instruction line (R101 to R104). -/
def machineWords (name : Text) (m : MachineMnemonic) (a b c : Text) : Except CompileError (List Emitted) := do
  let o1 ← parseOperand a
  let o2 ← parseOperand b
  let o3 ← parseOperand c
  let op ← lookupOpcode name m (lineLength o1 o2 o3)
  match packOperands op o1 o2 o3 with
  | some es => .ok es
  | none => .error (.malformedOperand name)

/-- A DC operand slot: a constant emits its word, an unused slot nothing, anything else is an error (R107). -/
def dcSlot (name t : Text) : Except CompileError (List Emitted) :=
  match t with
  | [] => .ok []
  | _ =>
    match parseConstant t with
    | some w => .ok [.word w]
    | none => .error (.malformedOperand name)

/-- DC: one word per constant, 1 to 3 of them, the slots used from the first on (R107). -/
def dcWords (name a b c : Text) : Except CompileError (List Emitted) :=
  if a = [] ∨ (b = [] ∧ c ≠ []) then .error (.malformedOperand name)
  else do
    let ea ← dcSlot name a
    let eb ← dcSlot name b
    let ec ← dcSlot name c
    .ok (ea ++ eb ++ ec)

/-- DS: N zero words, N one decimal constant that is not negative (R99, R108). -/
def dsWords (name a b c : Text) : Except CompileError (List Emitted) :=
  match decimalConstant a with
  | some i =>
    if 0 ≤ i ∧ b = [] ∧ c = [] then .ok (List.replicate i.toNat (.word 0)) else .error (.malformedOperand name)
  | none => .error (.malformedOperand name)

/-- OUT buf,len: the SVC first word 0xFF02 and two label placeholders (R109). -/
def outWords (name a b c : Text) : Except CompileError (List Emitted) := do
  let o1 ← parseOperand a
  let o2 ← parseOperand b
  match o1, o2, c with
  | .label buf, .label len, [] => .ok [.word (packWord .svc 0 Config.svcOutputType), .labelRef buf, .labelRef len]
  | _, _, _ => .error (.malformedOperand name)

/-- The words a line emits (R97, R101 to R109). -/
def lineWords (line : SourceLine) : Except CompileError (List Emitted) := do
  let m ← parseMnemonic line.mnemonic
  let (a, b, c) ← operandSlots line
  match m with
  | .machine mm => machineWords line.mnemonic mm a b c
  | .startLine => .ok []
  | .endLine => .ok []
  | .dc => dcWords line.mnemonic a b c
  | .ds => dsWords line.mnemonic a b c
  | .out => outWords line.mnemonic a b c

/-! ### The three passes (R105, R110, R111) -/

/-- What the passes have built so far. -/
structure Assembly where
  /-- The address of the next word of code or data (R105). -/
  cursor : Nat
  /-- The words written, by address. -/
  image : List (Nat × Word)
  /-- The label table, in order of definition. -/
  labels : List (Text × Nat)
  /-- Scheduled label patches: placeholder address and label. -/
  patches : List (Nat × Text)
  /-- Scheduled literals: placeholder address and value, first scheduled first. -/
  literals : List (Nat × Word)
  /-- The start address of each line that emits words, with the line's number (R112). -/
  sourceIndex : List (Nat × Nat)
deriving DecidableEq, Repr

/-- Nothing assembled yet; addresses start at 0 (R105). -/
def Assembly.empty : Assembly := ⟨0, [], [], [], [], []⟩

/-- Write the word at an address: replace the word there, else add the address at the end. -/
def writeImage : List (Nat × Word) → Nat → Word → List (Nat × Word)
  | [], a, v => [(a, v)]
  | (k, w) :: m, a, v => if k = a then (a, v) :: m else (k, w) :: writeImage m a v

/-- Emit one word at the cursor, scheduling the placeholder it may be (R104). -/
def emitWord (e : Emitted) (s : Assembly) : Assembly :=
  match e with
  | .word w => { s with cursor := s.cursor + 1, image := writeImage s.image s.cursor w }
  | .literalRef v =>
    { s with cursor := s.cursor + 1, image := writeImage s.image s.cursor 0, literals := s.literals ++ [(s.cursor, v)] }
  | .labelRef t =>
    { s with cursor := s.cursor + 1, image := writeImage s.image s.cursor 0, patches := s.patches ++ [(s.cursor, t)] }

/-- Emit the words of a line one after the other. -/
def emitWords : List Emitted → Assembly → Assembly
  | [], s => s
  | e :: es, s => emitWords es (emitWord e s)

/-- Record a label at the cursor; the first definition of a label wins (R105). -/
def defineLabel (t : Text) (s : Assembly) : Assembly :=
  if t = [] ∨ (lookupText s.labels t).isSome then s else { s with labels := s.labels ++ [(t, s.cursor)] }

/-- Record where a line that emits words starts (R112). -/
def recordSource (n : Nat) (es : List Emitted) (s : Assembly) : Assembly :=
  if es = [] then s else { s with sourceIndex := s.sourceIndex ++ [(s.cursor, n)] }

/-- Pass "allocate" over the lines from number `n` on (R105). -/
def allocate (n : Nat) : List SourceLine → Assembly → Except CompileError Assembly
  | [], s => .ok s
  | line :: rest, s => do
    let es ← lineWords line
    if s.cursor + es.length ≤ 65536 then
      allocate (n + 1) rest (emitWords es (recordSource n es (defineLabel line.label s)))
    else .error (.imageTooLarge s.cursor)

/-- Pass "solve labels": each placeholder gets its label's address; a label defined at address 0 is a label (R110). -/
def solveLabels (labels : List (Text × Nat)) :
    List (Nat × Text) → List (Nat × Word) → Except CompileError (List (Nat × Word))
  | [], image => .ok image
  | (a, t) :: rest, image =>
    match lookupText labels t with
    | none => .error (.undefinedLabel t)
    | some v =>
      if v < 65536 then solveLabels labels rest (writeImage image a (BitVec.ofNat 16 v))
      else .error (.labelPastEnd t)

/-- Pass "allocate literals": each scheduled literal at the next address from `p` on, none shared, and its address at
its placeholder (R111). -/
def allocateLiterals : Nat → List (Nat × Word) → List (Nat × Word) → Except CompileError (List (Nat × Word))
  | _, [], image => .ok image
  | p, (a, v) :: rest, image =>
    if p < 65536 then
      allocateLiterals (p + 1) rest (writeImage (writeImage image p v) a (BitVec.ofNat 16 p))
    else .error (.imageTooLarge p)

/-- The result: the memory image handed to the unit, and the tables kept for diagnostics (R112). -/
structure Program where
  image : List (Nat × Word)
  labels : List (Text × Nat)
  sourceIndex : List (Nat × Nat)
deriving DecidableEq, Repr

/-- Assemble a program text; any error leaves no output at all (R112). -/
def assemble (lines : List SourceLine) : Except CompileError Program := do
  let s ← allocate 0 lines Assembly.empty
  let solved ← solveLabels s.labels s.patches s.image
  let image ← allocateLiterals s.cursor s.literals solved
  .ok ⟨image, s.labels, s.sourceIndex⟩

/-- The image as the (address, word) pairs of the host's load (R261). -/
def Program.loadImage (p : Program) : List (Word × Word) := p.image.map (fun e => (BitVec.ofNat 16 e.1, e.2))

end Sys2Proof.Assembler
end

