-- ==== Sys2Proof/Machine/Ports.lean ====
section
/-!
DEFINITION. What the host does between steps (R43, R46, R249): reset, image load, run to completion, observation. A
single step is `step` itself, which run shares (R43, R131). All of them leave the unit's own rules alone.
-/

namespace Sys2Proof.Machine

/-- Reset: the state of R260 with ENTRY_PC = `entry`, whatever the state before. The only way out of Halted and
Faulted (R30, R241). -/
def hostReset (entry : Word) (_s : State) : State := State.resetAt entry

/-- Image load (R261): each address of the image holds its word and is marked written. Loading after reset and before
the first step is the host's duty (R249), not checked here (log entry 11). -/
def hostLoad (image : List (Word × Word)) (s : State) : State := s.setMem (s.mem.writeAll image)

/-- Run: repeat the step while the status is Running, under a bound on the number of steps (R130). A run that uses up
its fuel answers a state that is still Running: it has not ended. -/
def hostRun : Nat → State → Host.Outcome State Fault Refusal
  | 0, s => .next s
  | n + 1, s =>
    match s.status with
    | .halted => .next s
    | .faulted _ => .next s
    | .running =>
      match step s with
      | .next t => hostRun n t
      | .fault r => .fault r
      | .refused r => .refused r

/-- What the host sees of a register or flag: its value, or that it holds none. -/
def Marked.seen {α : Type} (m : Marked α) : Option α := if m.written then some m.value else none

/-- What the observation port shows between steps (R46). -/
structure Observation where
  pc : Word
  gr : Vector (Option Word) 8
  of : Option Bool
  sf : Option Bool
  zf : Option Bool
  status : Status
  faultCode : Option Nat
  outputs : List (List Word)
  dump : List (Nat × Word)
deriving DecidableEq, Repr

/-- The numeric fault code the status carries, if it is Faulted (R230). -/
def Status.faultCode : Status → Option Nat
  | .running => none
  | .halted => none
  | .faulted r => some r.cause.code

/-- Observation (R46): reading the port changes nothing, and memory is shown as every written address with its word,
in ascending address order. -/
def observe (s : State) : Observation where
  pc := s.pc
  gr := s.gr.map Marked.seen
  of := s.flags.of.seen
  sf := s.flags.sf.seen
  zf := s.flags.zf.seen
  status := s.status
  faultCode := s.status.faultCode
  outputs := s.outputs
  dump := s.mem

/-- What the I/O Gateway displays of the output history: OUTPUT_RENDER is an argument, outside the unit (R9, R44). -/
def gatewayLines (outputRender : List Word → List Char) (s : State) : List (List Char) := s.outputs.map outputRender

end Sys2Proof.Machine
end

