-- ==== Sys2Proof/Safety.lean ====
section
/-!
DEFINITION. The terms claims are stated in: what a register field, an index field or a flag gives an instruction, the
state a fault leaves (R240), the flags of a word and of a comparison (R126), the invariant of the machine, and how a
run ends (R133).
-/

namespace Sys2Proof.Machine

/-- The field names a register that holds the value `v` (R12, R23). -/
def RegHolds (s : State) (f : RegField) (v : Word) : Prop :=
  ∃ i : Fin 8, f.toNat = i.val ∧ s.gr[i] = ⟨v, true⟩

/-- An access of the register field raises `c` when the register is read: the index check comes first, then the
written marker (R12, R129). -/
def RegReadRaises (s : State) (f : RegField) (c : FaultCause) : Prop :=
  (8 ≤ f.toNat ∧ c = .undefinedRegister f) ∨
    ∃ i : Fin 8, f.toNat = i.val ∧ s.gr[i].written = false ∧ c = .unwrittenRegister (.gr i)

/-- The index field adds `k` to the address: 0 when the field is 0, else what the index register holds (R124). -/
def IndexHolds (s : State) (x : RegField) (k : Word) : Prop := (x = 0 ∧ k = 0) ∨ (x ≠ 0 ∧ RegHolds s x k)

/-- Computing the effective address raises `c` (R124). -/
def IndexRaises (s : State) (x : RegField) (c : FaultCause) : Prop := x ≠ 0 ∧ RegReadRaises s x c

/-- The state the fault `c` leaves: all as before, but for the status, which carries the record of R230 (R240). -/
def faultedAs (c : FaultCause) (s : State) : State :=
  { s with status := .faulted { cause := c, pc := s.pc, w0 := s.mem.read s.pc } }

/-- The flags from a result word: OF 0, SF its bit 15, ZF whether it is 0, all written (R126). -/
def wordFlags (w : Word) : Flags := ⟨⟨false, true⟩, ⟨w.msb, true⟩, ⟨decide (w = 0), true⟩⟩

/-- The flags from comparing two words as signed numbers: OF 0, SF whether less, ZF whether equal (R126, R174). -/
def orderFlags (a b : Word) : Flags := ⟨⟨false, true⟩, ⟨a.slt b, true⟩, ⟨decide (a = b), true⟩⟩

/-- The opcode bytes of the closed map, as R120 lists them with RET's. -/
def listedOpcodes : List OpByte :=
  [0x10, 0x11, 0x12, 0x14, 0x20, 0x25, 0x30, 0x34, 0x40, 0x44, 0x61, 0x63, 0x64, 0x65, 0x81, 0xFF]

/-- The instructions that call SetFlags (R27). -/
def setsFlags : Instr → Bool
  | .ldMem _ _ _ => true
  | .ldReg _ _ => true
  | .adda _ _ _ => true
  | .suba _ _ => true
  | .andMem _ _ _ => true
  | .andReg _ _ => true
  | .cpaMem _ _ _ => true
  | .cpaReg _ _ => true
  | .st _ _ _ => false
  | .lad _ _ _ => false
  | .jmi _ _ => false
  | .jze _ _ => false
  | .jump _ _ => false
  | .jpl _ _ => false
  | .ret => false
  | .svc _ _ => false

/-- The operands of a jump: its address word and index field. -/
def jumpOperands : Instr → Option (Word × RegField)
  | .jmi adr x => some (adr, x)
  | .jze adr x => some (adr, x)
  | .jump adr x => some (adr, x)
  | .jpl adr x => some (adr, x)
  | .ldMem _ _ _ => none
  | .ldReg _ _ => none
  | .adda _ _ _ => none
  | .suba _ _ => none
  | .andMem _ _ _ => none
  | .andReg _ _ => none
  | .cpaMem _ _ _ => none
  | .cpaReg _ _ => none
  | .st _ _ _ => none
  | .lad _ _ _ => none
  | .ret => none
  | .svc _ _ => none

/-- The status permits no further change (R30, R132). -/
def State.Stopped (s : State) : Prop := s.status ≠ .running

/-- The flags are written all together, OF is 0 once written, and SF and ZF are never both 1 (R26, R28, R125). -/
abbrev Flags.Legal (f : Flags) : Prop :=
  f.sf.written = f.of.written ∧ f.zf.written = f.of.written ∧
    (f.of.written = true → f.of.value = false ∧ ¬ (f.sf.value = true ∧ f.zf.value = true))

/-- A fault record tells of the state it stands in: the PC of the faulting instruction, its first word if there is one,
and one of the six faults the unit can raise (R230, R238, R240). -/
abbrev Status.Coherent (st : Status) (s : State) : Prop :=
  match st with
  | .running => True
  | .halted => True
  | .faulted r => r.pc = s.pc ∧ r.w0 = s.mem.read s.pc ∧ 1 ≤ r.cause.code ∧ r.cause.code ≤ 6

/-- A halt stands at a RET: the word at PC has opcode byte 0x81 (R133, R198). -/
abbrev Status.AtRet (st : Status) (s : State) : Prop :=
  match st with
  | .running => True
  | .halted => (s.mem.read s.pc).map opcodeOf = some 0x81
  | .faulted _ => True

/-- The invariant of the machine: canonical memory, legal flags, and a status that fits the state. -/
abbrev State.Inv (s : State) : Prop :=
  s.mem.wf = true ∧ s.flags.Legal ∧ s.status.Coherent s ∧ s.status.AtRet s

/-- The run from `s` ends normally in `t`: some number of steps reaches status Halted (R133). -/
def EndsNormally (s t : State) : Prop := ∃ n, hostRun n s = .next t ∧ t.status = .halted

/-- The run from `s` ends in a fault (R133). -/
def EndsFaulted (s t : State) : Prop := ∃ n r, hostRun n s = .next t ∧ t.status = .faulted r

/-- The run from `s` is a hang: it never stops (R133). -/
def Hangs (s : State) : Prop := ∀ n, ∃ t, hostRun n s = .next t ∧ t.status = .running

end Sys2Proof.Machine
end

