-- ==== Sys2Proof/Certificates/Slice0/Obligations.lean ====
section
/-!
DEFINITION. The statements for the provers. An instruction's statement gives its encoding, its result with everything
else unchanged, and each of its exceptions in the order of its rule; the fetch of its operand words is among them.
-/

open Sys2Proof Sys2Proof.Machine

/-- One word of every row of the opcode map, written out from R82 to R85, decodes to its instruction. -/
def Obligations.OpcodeMapWordsDecode : Prop :=
  decode [0x1012, 0x0102] = .ok (.ldMem 1 0x0102 2, []) ∧
  decode [0x1175, 0x0200] = .ok (.st 7 0x0200 5, []) ∧
  decode [0x1210, 0x0005] = .ok (.lad 1 0x0005 0, []) ∧
  decode [0x1412] = .ok (.ldReg 1 2, []) ∧
  decode [0x2012, 0x0010] = .ok (.adda 1 0x0010 2, []) ∧
  decode [0x2512] = .ok (.suba 1 2, []) ∧
  decode [0x3010, 0x0041] = .ok (.andMem 1 0x0041 0, []) ∧
  decode [0x3412] = .ok (.andReg 1 2, []) ∧
  decode [0x4060, 0x0042] = .ok (.cpaMem 6 0x0042 0, []) ∧
  decode [0x44A2] = .ok (.cpaReg 10 2, []) ∧
  decode [0x6100, 0x0020] = .ok (.jmi 0x0020 0, []) ∧
  decode [0x6300, 0x0020] = .ok (.jze 0x0020 0, []) ∧
  decode [0x64F3, 0x0010] = .ok (.jump 0x0010 3, []) ∧
  decode [0x6503, 0x0030] = .ok (.jpl 0x0030 3, []) ∧
  decode [0x81FF] = .ok (.ret, []) ∧
  decode [0xFF02, 0x0010, 0x0020] = .ok (.svc 0x0010 0x0020, [])

/-- Decoding the words of any instruction, with any words after them, gives it back with those words (R80 to R85). -/
def Obligations.DecodeInvertsEncode : Prop :=
  ∀ (i : Instr) (rest : List Word), decode (encode i ++ rest) = .ok (i, rest)

/-- Whatever decodes is the encoding of what it decodes to, but for the first word's ignored bits (R87). -/
def Obligations.EncodeInvertsDecode : Prop :=
  ∀ (ws rest : List Word) (i : Instr), decode ws = .ok (i, rest) →
    ∃ (w0 : Word) (tl : List Word), ws = w0 :: (tl ++ rest) ∧ encode i = (w0 &&& i.examinedBits) :: tl ∧
      tl.length + 1 = i.words

/-- R86, R231. -/
def Obligations.UnlistedOpcodeFaults : Prop :=
  (∀ (s : State) (w0 : Word), s.status = .running → s.mem.read s.pc = some w0 → opcodeOf w0 ∉ listedOpcodes →
      step s = .next (faultedAs (.unimplementedOpcode (opcodeOf w0)) s)) ∧
    (∀ b : OpByte, (FaultCause.unimplementedOpcode b).code = 1) ∧
    ((List.range 256).filter (fun b => decide (BitVec.ofNat 8 b ∉ listedOpcodes))).length = 240 ∧
    (0x00 : OpByte) ∉ listedOpcodes

/-- R88, R236. -/
def Obligations.OtherSvcWordsFault : Prop :=
  (∀ (s : State) (w0 : Word), s.status = .running → s.mem.read s.pc = some w0 → opcodeOf w0 = 0xFF → w0 ≠ 0xFF02 →
      step s = .next (faultedAs (.unsupportedSvc w0) s)) ∧
    (∀ w0 : Word, (FaultCause.unsupportedSvc w0).code = 5) ∧
    (∀ (dp lp : Word), decode [0xFF02, dp, lp] = .ok (.svc dp lp, []))

/-- R87: bits 7..4 of the jumps and bits 7..0 of RET are not examined. -/
def Obligations.IgnoredBitsDoNotMatter : Prop :=
  ∀ (w0 w0' : Word) (tl : List Word),
    ((opcodeOf w0 ∈ [(0x61 : OpByte), 0x63, 0x64, 0x65] ∧ w0 &&& 0xFF0F = w0' &&& 0xFF0F) ∨
      (opcodeOf w0 = 0x81 ∧ opcodeOf w0' = 0x81)) →
    decode (w0 :: tl) = decode (w0' :: tl)

/-- R120, R121, R122: the step runs the instruction whose words stand at PC. -/
def Obligations.StepRunsDecodedInstruction : Prop :=
  ∀ (s : State) (ws rest : List Word) (i : Instr), s.status = .running →
    (∀ k, k < ws.length → s.mem.read (s.pc + BitVec.ofNat 16 k) = ws[k]?) →
    decode ws = .ok (i, rest) → step s = exec i s

/-- R132. -/
def Obligations.StoppedStepChangesNothing : Prop :=
  ∀ s : State, s.status ≠ .running → step s = .next s

/-- R121, R123, in the order of R129. -/
def Obligations.FetchOfUnwrittenWordFaults : Prop :=
  ∀ s : State, s.status = .running →
    (s.mem.read s.pc = none → step s = .next (faultedAs (.uninitializedMemory s.pc) s)) ∧
    (∀ (w0 : Word) (op : Opcode), s.mem.read s.pc = some w0 → decodeFirst w0 = .ok op →
      (2 ≤ op.words → s.mem.read (s.pc + 1) = none →
        step s = .next (faultedAs (.uninitializedMemory (s.pc + 1)) s)) ∧
      (op.words = 3 → s.mem.read (s.pc + 1) ≠ none → s.mem.read (s.pc + 2) = none →
        step s = .next (faultedAs (.uninitializedMemory (s.pc + 2)) s)))

/-- R240. -/
def Obligations.FaultIsPrecise : Prop :=
  ∀ (s t : State) (r : FaultRecord), s.status = .running → step s = .next t → t.status = .faulted r →
    t = { s with status := .faulted r } ∧ r.pc = s.pc ∧ r.w0 = s.mem.read s.pc

/-- R238. -/
def Obligations.InvalidExternalInputUnreachable : Prop :=
  (∀ (s t : State) (r : FaultRecord), s.status = .running → step s = .next t → t.status = .faulted r →
      r.cause ≠ .invalidExternalInput ∧ 1 ≤ r.cause.code ∧ r.cause.code ≤ 6) ∧
    FaultCause.invalidExternalInput.code = 7

/-- R150, whole. -/
def Obligations.LoadFromMemory : Prop :=
  ∀ (s : State) (r1 x : RegField) (adr : Word),
    decode [0x10#8 ++ r1 ++ x, adr] = .ok (.ldMem r1 adr x, []) ∧
    (∀ (i : Fin 8) (k v : Word), r1.toNat = i.val → IndexHolds s x k → s.mem.read (adr + k) = some v →
      exec (.ldMem r1 adr x) s = .next
        { s with pc := s.pc + 2, gr := s.gr.set i ⟨v, true⟩, flags := wordFlags v }) ∧
    (∀ c, IndexRaises s x c → exec (.ldMem r1 adr x) s = .next (faultedAs c s)) ∧
    (∀ k, IndexHolds s x k → s.mem.read (adr + k) = none →
      exec (.ldMem r1 adr x) s = .next (faultedAs (.uninitializedMemory (adr + k)) s)) ∧
    (∀ k v, IndexHolds s x k → s.mem.read (adr + k) = some v → 8 ≤ r1.toNat →
      exec (.ldMem r1 adr x) s = .next (faultedAs (.undefinedRegister r1) s)) ∧
    (s.status = .running → s.mem.read s.pc = some (0x10#8 ++ r1 ++ x) → s.mem.read (s.pc + 1) = none →
      step s = .next (faultedAs (.uninitializedMemory (s.pc + 1)) s))

/-- R151, whole. -/
def Obligations.StoreToMemory : Prop :=
  ∀ (s : State) (r1 x : RegField) (adr : Word),
    decode [0x11#8 ++ r1 ++ x, adr] = .ok (.st r1 adr x, []) ∧
    (∀ (k v : Word), IndexHolds s x k → RegHolds s r1 v →
      exec (.st r1 adr x) s = .next { s with pc := s.pc + 2, mem := s.mem.write (adr + k) v } ∧
        ∀ b, (s.mem.write (adr + k) v).read b = if b = adr + k then some v else s.mem.read b) ∧
    (∀ c, IndexRaises s x c → exec (.st r1 adr x) s = .next (faultedAs c s)) ∧
    (∀ k c, IndexHolds s x k → RegReadRaises s r1 c → exec (.st r1 adr x) s = .next (faultedAs c s)) ∧
    (s.status = .running → s.mem.read s.pc = some (0x11#8 ++ r1 ++ x) → s.mem.read (s.pc + 1) = none →
      step s = .next (faultedAs (.uninitializedMemory (s.pc + 1)) s))

/-- R152, whole. -/
def Obligations.LoadAddress : Prop :=
  ∀ (s : State) (r1 x : RegField) (adr : Word),
    decode [0x12#8 ++ r1 ++ x, adr] = .ok (.lad r1 adr x, []) ∧
    (∀ (i : Fin 8) (k : Word), r1.toNat = i.val → IndexHolds s x k →
      exec (.lad r1 adr x) s = .next { s with pc := s.pc + 2, gr := s.gr.set i ⟨adr + k, true⟩ }) ∧
    (∀ c, IndexRaises s x c → exec (.lad r1 adr x) s = .next (faultedAs c s)) ∧
    (∀ k, IndexHolds s x k → 8 ≤ r1.toNat → exec (.lad r1 adr x) s = .next (faultedAs (.undefinedRegister r1) s)) ∧
    (s.status = .running → s.mem.read s.pc = some (0x12#8 ++ r1 ++ x) → s.mem.read (s.pc + 1) = none →
      step s = .next (faultedAs (.uninitializedMemory (s.pc + 1)) s))

/-- R153, whole. -/
def Obligations.LoadFromRegister : Prop :=
  ∀ (s : State) (r1 r2 : RegField),
    decode [0x14#8 ++ r1 ++ r2] = .ok (.ldReg r1 r2, []) ∧
    (∀ (i : Fin 8) (v : Word), r1.toNat = i.val → RegHolds s r2 v →
      exec (.ldReg r1 r2) s = .next
        { s with pc := s.pc + 1, gr := s.gr.set i ⟨v, true⟩, flags := wordFlags v }) ∧
    (∀ c, RegReadRaises s r2 c → exec (.ldReg r1 r2) s = .next (faultedAs c s)) ∧
    (∀ v, RegHolds s r2 v → 8 ≤ r1.toNat → exec (.ldReg r1 r2) s = .next (faultedAs (.undefinedRegister r1) s))

/-- R170, whole. -/
def Obligations.AddFromMemory : Prop :=
  ∀ (s : State) (r1 x : RegField) (adr : Word),
    decode [0x20#8 ++ r1 ++ x, adr] = .ok (.adda r1 adr x, []) ∧
    (∀ (i : Fin 8) (k a b : Word), r1.toNat = i.val → IndexHolds s x k → s.gr[i] = ⟨a, true⟩ →
      s.mem.read (adr + k) = some b →
      exec (.adda r1 adr x) s = .next
        { s with pc := s.pc + 2, gr := s.gr.set i ⟨a + b, true⟩, flags := wordFlags (a + b) }) ∧
    (∀ c, IndexRaises s x c → exec (.adda r1 adr x) s = .next (faultedAs c s)) ∧
    (∀ k c, IndexHolds s x k → RegReadRaises s r1 c → exec (.adda r1 adr x) s = .next (faultedAs c s)) ∧
    (∀ k a, IndexHolds s x k → RegHolds s r1 a → s.mem.read (adr + k) = none →
      exec (.adda r1 adr x) s = .next (faultedAs (.uninitializedMemory (adr + k)) s)) ∧
    (s.status = .running → s.mem.read s.pc = some (0x20#8 ++ r1 ++ x) → s.mem.read (s.pc + 1) = none →
      step s = .next (faultedAs (.uninitializedMemory (s.pc + 1)) s))

/-- R171, whole. -/
def Obligations.SubtractRegister : Prop :=
  ∀ (s : State) (r1 r2 : RegField),
    decode [0x25#8 ++ r1 ++ r2] = .ok (.suba r1 r2, []) ∧
    (∀ (i : Fin 8) (a b : Word), r1.toNat = i.val → s.gr[i] = ⟨a, true⟩ → RegHolds s r2 b →
      exec (.suba r1 r2) s = .next
        { s with pc := s.pc + 1, gr := s.gr.set i ⟨a - b, true⟩, flags := wordFlags (a - b) }) ∧
    (∀ c, RegReadRaises s r1 c → exec (.suba r1 r2) s = .next (faultedAs c s)) ∧
    (∀ a c, RegHolds s r1 a → RegReadRaises s r2 c → exec (.suba r1 r2) s = .next (faultedAs c s))

/-- R172, whole. -/
def Obligations.AndFromMemory : Prop :=
  ∀ (s : State) (r1 x : RegField) (adr : Word),
    decode [0x30#8 ++ r1 ++ x, adr] = .ok (.andMem r1 adr x, []) ∧
    (∀ (i : Fin 8) (k a b : Word), r1.toNat = i.val → IndexHolds s x k → s.gr[i] = ⟨a, true⟩ →
      s.mem.read (adr + k) = some b →
      exec (.andMem r1 adr x) s = .next
        { s with pc := s.pc + 2, gr := s.gr.set i ⟨a &&& b, true⟩, flags := wordFlags (a &&& b) }) ∧
    (∀ c, IndexRaises s x c → exec (.andMem r1 adr x) s = .next (faultedAs c s)) ∧
    (∀ k c, IndexHolds s x k → RegReadRaises s r1 c → exec (.andMem r1 adr x) s = .next (faultedAs c s)) ∧
    (∀ k a, IndexHolds s x k → RegHolds s r1 a → s.mem.read (adr + k) = none →
      exec (.andMem r1 adr x) s = .next (faultedAs (.uninitializedMemory (adr + k)) s)) ∧
    (s.status = .running → s.mem.read s.pc = some (0x30#8 ++ r1 ++ x) → s.mem.read (s.pc + 1) = none →
      step s = .next (faultedAs (.uninitializedMemory (s.pc + 1)) s))

/-- R173, whole. -/
def Obligations.AndRegister : Prop :=
  ∀ (s : State) (r1 r2 : RegField),
    decode [0x34#8 ++ r1 ++ r2] = .ok (.andReg r1 r2, []) ∧
    (∀ (i : Fin 8) (a b : Word), r1.toNat = i.val → s.gr[i] = ⟨a, true⟩ → RegHolds s r2 b →
      exec (.andReg r1 r2) s = .next
        { s with pc := s.pc + 1, gr := s.gr.set i ⟨a &&& b, true⟩, flags := wordFlags (a &&& b) }) ∧
    (∀ c, RegReadRaises s r1 c → exec (.andReg r1 r2) s = .next (faultedAs c s)) ∧
    (∀ a c, RegHolds s r1 a → RegReadRaises s r2 c → exec (.andReg r1 r2) s = .next (faultedAs c s))

/-- R174, whole. -/
def Obligations.CompareWithMemory : Prop :=
  ∀ (s : State) (r1 x : RegField) (adr : Word),
    decode [0x40#8 ++ r1 ++ x, adr] = .ok (.cpaMem r1 adr x, []) ∧
    (∀ (k a b : Word), IndexHolds s x k → RegHolds s r1 a → s.mem.read (adr + k) = some b →
      exec (.cpaMem r1 adr x) s = .next { s with pc := s.pc + 2, flags := orderFlags a b }) ∧
    (∀ c, IndexRaises s x c → exec (.cpaMem r1 adr x) s = .next (faultedAs c s)) ∧
    (∀ k c, IndexHolds s x k → RegReadRaises s r1 c → exec (.cpaMem r1 adr x) s = .next (faultedAs c s)) ∧
    (∀ k a, IndexHolds s x k → RegHolds s r1 a → s.mem.read (adr + k) = none →
      exec (.cpaMem r1 adr x) s = .next (faultedAs (.uninitializedMemory (adr + k)) s)) ∧
    (s.status = .running → s.mem.read s.pc = some (0x40#8 ++ r1 ++ x) → s.mem.read (s.pc + 1) = none →
      step s = .next (faultedAs (.uninitializedMemory (s.pc + 1)) s))

/-- R175, whole. -/
def Obligations.CompareRegisters : Prop :=
  ∀ (s : State) (r1 r2 : RegField),
    decode [0x44#8 ++ r1 ++ r2] = .ok (.cpaReg r1 r2, []) ∧
    (∀ (a b : Word), RegHolds s r1 a → RegHolds s r2 b →
      exec (.cpaReg r1 r2) s = .next { s with pc := s.pc + 1, flags := orderFlags a b }) ∧
    (∀ c, RegReadRaises s r1 c → exec (.cpaReg r1 r2) s = .next (faultedAs c s)) ∧
    (∀ a c, RegHolds s r1 a → RegReadRaises s r2 c → exec (.cpaReg r1 r2) s = .next (faultedAs c s))

/-- R190, whole. -/
def Obligations.JumpOnMinus : Prop :=
  ∀ (s : State) (f1 x : RegField) (adr : Word),
    decode [0x61#8 ++ f1 ++ x, adr] = .ok (.jmi adr x, []) ∧
    (∀ (k : Word) (b : Bool), IndexHolds s x k → s.flags.sf = ⟨b, true⟩ →
      exec (.jmi adr x) s = .next { s with pc := if b then adr + k else s.pc + 2 }) ∧
    (∀ c, IndexRaises s x c → exec (.jmi adr x) s = .next (faultedAs c s)) ∧
    (∀ k, IndexHolds s x k → s.flags.sf.written = false →
      exec (.jmi adr x) s = .next (faultedAs (.unwrittenRegister .sf) s)) ∧
    (s.status = .running → s.mem.read s.pc = some (0x61#8 ++ f1 ++ x) → s.mem.read (s.pc + 1) = none →
      step s = .next (faultedAs (.uninitializedMemory (s.pc + 1)) s))

/-- R191, whole. -/
def Obligations.JumpOnZero : Prop :=
  ∀ (s : State) (f1 x : RegField) (adr : Word),
    decode [0x63#8 ++ f1 ++ x, adr] = .ok (.jze adr x, []) ∧
    (∀ (k : Word) (b : Bool), IndexHolds s x k → s.flags.zf = ⟨b, true⟩ →
      exec (.jze adr x) s = .next { s with pc := if b then adr + k else s.pc + 2 }) ∧
    (∀ c, IndexRaises s x c → exec (.jze adr x) s = .next (faultedAs c s)) ∧
    (∀ k, IndexHolds s x k → s.flags.zf.written = false →
      exec (.jze adr x) s = .next (faultedAs (.unwrittenRegister .zf) s)) ∧
    (s.status = .running → s.mem.read s.pc = some (0x63#8 ++ f1 ++ x) → s.mem.read (s.pc + 1) = none →
      step s = .next (faultedAs (.uninitializedMemory (s.pc + 1)) s))

/-- R192, whole. -/
def Obligations.JumpAlways : Prop :=
  ∀ (s : State) (f1 x : RegField) (adr : Word),
    decode [0x64#8 ++ f1 ++ x, adr] = .ok (.jump adr x, []) ∧
    (∀ (k : Word), IndexHolds s x k → exec (.jump adr x) s = .next { s with pc := adr + k }) ∧
    (∀ c, IndexRaises s x c → exec (.jump adr x) s = .next (faultedAs c s)) ∧
    (s.status = .running → s.mem.read s.pc = some (0x64#8 ++ f1 ++ x) → s.mem.read (s.pc + 1) = none →
      step s = .next (faultedAs (.uninitializedMemory (s.pc + 1)) s))

/-- R193, whole. -/
def Obligations.JumpOnPlus : Prop :=
  ∀ (s : State) (f1 x : RegField) (adr : Word),
    decode [0x65#8 ++ f1 ++ x, adr] = .ok (.jpl adr x, []) ∧
    (∀ (k : Word) (n z : Bool), IndexHolds s x k → s.flags.sf = ⟨n, true⟩ → s.flags.zf = ⟨z, true⟩ →
      exec (.jpl adr x) s = .next { s with pc := if n = false ∧ z = false then adr + k else s.pc + 2 }) ∧
    (∀ c, IndexRaises s x c → exec (.jpl adr x) s = .next (faultedAs c s)) ∧
    (∀ k, IndexHolds s x k → s.flags.sf.written = false →
      exec (.jpl adr x) s = .next (faultedAs (.unwrittenRegister .sf) s)) ∧
    (∀ k, IndexHolds s x k → s.flags.sf.written = true → s.flags.zf.written = false →
      exec (.jpl adr x) s = .next (faultedAs (.unwrittenRegister .zf) s)) ∧
    (s.status = .running → s.mem.read s.pc = some (0x65#8 ++ f1 ++ x) → s.mem.read (s.pc + 1) = none →
      step s = .next (faultedAs (.uninitializedMemory (s.pc + 1)) s))

/-- R198, whole. -/
def Obligations.ReturnHalts : Prop :=
  ∀ (s : State) (low : BitVec 8),
    decode [0x81#8 ++ low] = .ok (.ret, []) ∧
    exec .ret s = .next { s with status := .halted } ∧
    (s.status = .running → s.mem.read s.pc = some (0x81#8 ++ low) →
      step s = .next { s with status := .halted } ∧
        step { s with status := .halted } = .next { s with status := .halted })

/-- R210, whole. -/
def Obligations.SupervisorOutput : Prop :=
  ∀ (s : State) (dp lp : Word),
    decode [0xFF02, dp, lp] = .ok (.svc dp lp, []) ∧
    (∀ (lw : Word) (ws : List Word), s.mem.read lp = some lw → lw.toNat < 0x8000 → ws.length = lw.toNat →
      (∀ j, j < lw.toNat → s.mem.read (dp + BitVec.ofNat 16 j) = ws[j]?) →
      exec (.svc dp lp) s = .next { s with pc := s.pc + 3, outputs := s.outputs ++ [ws] }) ∧
    (s.mem.read lp = none → exec (.svc dp lp) s = .next (faultedAs (.uninitializedMemory lp) s)) ∧
    (∀ lw, s.mem.read lp = some lw → 0x8000 ≤ lw.toNat →
      exec (.svc dp lp) s = .next (faultedAs (.invalidOutputLength lw) s)) ∧
    (∀ (lw : Word) (j : Nat), s.mem.read lp = some lw → lw.toNat < 0x8000 → j < lw.toNat →
      (∀ m, m < j → s.mem.read (dp + BitVec.ofNat 16 m) ≠ none) → s.mem.read (dp + BitVec.ofNat 16 j) = none →
      exec (.svc dp lp) s = .next (faultedAs (.uninitializedMemory (dp + BitVec.ofNat 16 j)) s)) ∧
    (∀ w0, s.status = .running → s.mem.read s.pc = some w0 → opcodeOf w0 = 0xFF → w0 ≠ 0xFF02 →
      step s = .next (faultedAs (.unsupportedSvc w0) s)) ∧
    (s.status = .running → s.mem.read s.pc = some 0xFF02 → s.mem.read (s.pc + 1) = none →
      step s = .next (faultedAs (.uninitializedMemory (s.pc + 1)) s)) ∧
    (s.status = .running → s.mem.read s.pc = some 0xFF02 → s.mem.read (s.pc + 1) ≠ none →
      s.mem.read (s.pc + 2) = none → step s = .next (faultedAs (.uninitializedMemory (s.pc + 2)) s))

/-- R124. -/
def Obligations.EffectiveAddressRule : Prop :=
  ∀ (s : State) (xf : RegField) (adr : Word),
    effectiveAddress 0 adr s = .ok adr ∧
    (∀ k, xf ≠ 0 → RegHolds s xf k →
      ∃ ea, effectiveAddress xf adr s = .ok ea ∧ ea.toNat = (adr.toNat + k.toNat) % 65536) ∧
    (∀ c, xf ≠ 0 → RegReadRaises s xf c → effectiveAddress xf adr s = .error c)

/-- R125. -/
def Obligations.SetFlagsRule : Prop :=
  ∀ (r : Int) (s : State),
    setFlags r s =
      { s with flags := ⟨⟨false, true⟩, ⟨decide (r < 0), true⟩, ⟨decide (r = 0), true⟩⟩ } ∧
    (0 < r → (setFlags r s).flags.sf.value = false ∧ (setFlags r s).flags.zf.value = false)

/-- R27 (writers) and R26 (what they write, unless they fault). -/
def Obligations.FlagsChangeOnlyByFlagWriters : Prop :=
  ∀ (i : Instr) (s t : State), exec i s = .next t →
    (setsFlags i = false → t.flags = s.flags) ∧
    (setsFlags i = true → (∃ c, t = faultedAs c s) ∨
      ∃ r : Int, t.flags = ⟨⟨false, true⟩, ⟨decide (r < 0), true⟩, ⟨decide (r = 0), true⟩⟩)

/-- R28: no instruction sets OF to 1. -/
def Obligations.OverflowFlagNeverSet : Prop :=
  ∀ s t : State, step s = .next t → t.flags.of = s.flags.of ∨ t.flags.of = ⟨false, true⟩

/-- R31: no instruction clears a marker. -/
def Obligations.MarkersNeverCleared : Prop :=
  ∀ s t : State, step s = .next t →
    (∀ i : Fin 8, s.gr[i].written = true → t.gr[i].written = true) ∧
    (s.flags.of.written = true → t.flags.of.written = true) ∧
    (s.flags.sf.written = true → t.flags.sf.written = true) ∧
    (s.flags.zf.written = true → t.flags.zf.written = true) ∧
    (∀ a, s.mem.read a ≠ none → t.mem.read a ≠ none)

/-- R260. -/
def Obligations.ResetLeaves : Prop :=
  ∀ (entry : Word) (s : State),
    (hostReset entry s).pc = entry ∧
    (∀ i : Fin 8, (hostReset entry s).gr[i].written = false) ∧
    (hostReset entry s).flags.of.written = false ∧ (hostReset entry s).flags.sf.written = false ∧
    (hostReset entry s).flags.zf.written = false ∧
    (hostReset entry s).status = .running ∧ (hostReset entry s).outputs = [] ∧
    (∀ a, (hostReset entry s).mem.read a = none) ∧
    State.reset = hostReset 0x0000 s

/-- The machine's invariant holds after reset with any ENTRY_PC. -/
def Obligations.ResetMeetsInvariant : Prop :=
  ∀ entry : Word, (State.resetAt entry).Inv

/-- Every step keeps the machine's invariant (R26, R28, R50, R133, R230, R240). -/
def Obligations.StepKeepsInvariant : Prop :=
  ∀ s t : State, s.Inv → step s = .next t → t.Inv

/-- R12, R31, R46: what stands beside a clear marker (log entries 1 and 2) can never be seen. -/
def Obligations.UnwrittenValuesUnobservable : Prop :=
  ∀ s t s' t' : State, observe s = observe t → step s = .next s' → step t = .next t' → observe s' = observe t'

/-- R130, R131: run and interactive steps share the step and reach the same states. -/
def Obligations.RunIsRepeatedStep : Prop :=
  (∀ (n : Nat) (s : State), hostRun n s = Host.Core.run Sys2Proof.core n s) ∧
    (∀ (m n : Nat) (s t : State), hostRun m s = .next t → hostRun (m + n) s = hostRun n t)

/-- R30, R132: Halted and Faulted are permanent until reset, however many steps are issued. -/
def Obligations.StoppedIsPermanent : Prop :=
  ∀ (m n : Nat) (s t : State), Host.Core.run Sys2Proof.core m s = .next t → t.Stopped →
    Host.Core.run Sys2Proof.core (m + n) s = .next t

/-- R133: a normal end happens only by a RET at PC. -/
def Obligations.HaltOnlyByRet : Prop :=
  ∀ s t : State, s.status = .running → step s = .next t → t.status = .halted →
    ∃ w, s.mem.read s.pc = some w ∧ opcodeOf w = 0x81 ∧ t = { s with status := .halted }

/-- R261: exactly the image's words are written by the load. -/
def Obligations.ImageLoadRule : Prop :=
  ∀ (image : List (Word × Word)) (s : State), image.Pairwise (fun p q => p.1 ≠ q.1) →
    (∀ a w, (hostLoad image s).mem.read a = some w ↔
      ((a, w) ∈ image ∨ ((∀ v, (a, v) ∉ image) ∧ s.mem.read a = some w))) ∧
    (s.mem.wf = true → (hostLoad image s).mem.wf = true) ∧
    hostLoad image s = { s with mem := (hostLoad image s).mem }

/-- R46: every written address with its word, in ascending address order. -/
def Obligations.DumpShowsMemory : Prop :=
  ∀ s : State, s.mem.wf = true →
    (observe s).dump.Pairwise (fun p q => p.1 < q.1) ∧
    (∀ p ∈ (observe s).dump, p.1 < 65536) ∧
    (∀ a w, (a.toNat, w) ∈ (observe s).dump ↔ s.mem.read a = some w)

/-- R53. -/
def Obligations.WriteThenRead : Prop :=
  (∀ (a v b : Word) (s : State), (memWrite a v s).mem.read b = if b = a then some v else s.mem.read b) ∧
    (∀ (i : Instr) (s t : State), exec i s = .next t → t.mem ≠ s.mem → ∃ r1 adr x, i = .st r1 adr x)

/-- R32, R66, R211: the history grows at its end, by one transaction, by an SVC. -/
def Obligations.OutputsGrowOnlyBySvc : Prop :=
  ∀ (i : Instr) (s t : State), exec i s = .next t →
    t.outputs = s.outputs ∨ ∃ dp lp ws, i = .svc dp lp ∧ t.outputs = s.outputs ++ [ws]

/-- R32: the history records; no instruction reads it. -/
def Obligations.OutputHistoryNeverRead : Prop :=
  ∀ (s t : State) (h : List (List Word)), step s = .next t →
    step { s with outputs := h ++ s.outputs } = .next { t with outputs := h ++ t.outputs }

/-- R176: the exact result is kept modulo 65536, the same for both readings. -/
def Obligations.AluKeepsLowBits : Prop :=
  ∀ a b : Word,
    ((addWords a b).toNat : Int) = ((a.toNat : Int) + b.toNat) % 65536 ∧
    ((subWords a b).toNat : Int) = ((a.toNat : Int) - b.toNat) % 65536 ∧
    addWords a b = trunc16 (sext16 a + sext16 b) ∧ subWords a b = trunc16 (sext16 a - sext16 b) ∧
    (flagsOf (sext16 (addWords a b))).of = ⟨false, true⟩ ∧ (flagsOf (sext16 (subWords a b))).of = ⟨false, true⟩

/-- R197. -/
def Obligations.BranchesAfterCompare : Prop :=
  ∀ (s t : State) (r1 r2 x : RegField) (adr a b k : Word),
    RegHolds s r1 a → RegHolds s r2 b → IndexHolds s x k → exec (.cpaReg r1 r2) s = .next t →
    exec (.jump adr x) t = .next { t with pc := adr + k } ∧
    exec (.jze adr x) t = .next { t with pc := if a = b then adr + k else t.pc + 2 } ∧
    exec (.jmi adr x) t = .next { t with pc := if a.toInt < b.toInt then adr + k else t.pc + 2 } ∧
    exec (.jpl adr x) t = .next { t with pc := if b.toInt < a.toInt then adr + k else t.pc + 2 }

/-- R64, R264. -/
def Obligations.StoreSeenByNextFetch : Prop :=
  ∀ (s : State) (r1 x : RegField) (adr ea v : Word), s.status = .running →
    fetch s = .ok (.st r1 adr x) → effectiveAddress x adr s = .ok ea → readReg r1 s = .ok v →
    step s = .next { s with pc := s.pc + 2, mem := s.mem.write ea v } ∧
    (ea = s.pc + 2 → opcodeOf v = 0x81 →
      step { s with pc := s.pc + 2, mem := s.mem.write ea v } =
        .next { s with pc := s.pc + 2, mem := s.mem.write ea v, status := .halted })

/-- R127. -/
def Obligations.AdvanceOrJump : Prop :=
  ∀ (i : Instr) (s t : State), exec i s = .next t →
    (∃ c, t = faultedAs c s) ∨
    (i ≠ .ret ∧ t.status = s.status ∧
      (t.pc = s.pc + BitVec.ofNat 16 i.words ∨
        ∃ adr x ea, jumpOperands i = some (adr, x) ∧ effectiveAddress x adr s = .ok ea ∧ t.pc = ea)) ∨
    (i = .ret ∧ t = { s with status := .halted })

/-- Frame of LD (both forms), ADDA, SUBA and AND (both forms): R24, R27, R57. -/
def Obligations.LoadAndAluFrame : Prop :=
  ∀ (s t : State) (r1 r2 x : RegField) (adr : Word),
    (exec (.ldMem r1 adr x) s = .next t ∨ exec (.ldReg r1 r2) s = .next t ∨ exec (.adda r1 adr x) s = .next t ∨
      exec (.suba r1 r2) s = .next t ∨ exec (.andMem r1 adr x) s = .next t ∨ exec (.andReg r1 r2) s = .next t) →
    (∀ j : Fin 8, j.val ≠ r1.toNat → t.gr[j] = s.gr[j]) ∧
    (∀ a, t.mem.read a = s.mem.read a) ∧ t.outputs = s.outputs ∧
    (t.status = s.status ∨ ∃ r, t.status = .faulted r)

/-- Frame of LAD: R24, R27. -/
def Obligations.LoadAddressFrame : Prop :=
  ∀ (s t : State) (r1 x : RegField) (adr : Word), exec (.lad r1 adr x) s = .next t →
    (∀ j : Fin 8, j.val ≠ r1.toNat → t.gr[j] = s.gr[j]) ∧ t.flags = s.flags ∧
    (∀ a, t.mem.read a = s.mem.read a) ∧ t.outputs = s.outputs ∧
    (t.status = s.status ∨ ∃ r, t.status = .faulted r)

/-- Frame of ST: R24, R27, R53. -/
def Obligations.StoreFrame : Prop :=
  ∀ (s t : State) (r1 x : RegField) (adr : Word), exec (.st r1 adr x) s = .next t →
    t.gr = s.gr ∧ t.flags = s.flags ∧ t.outputs = s.outputs ∧
    (∀ ea, effectiveAddress x adr s = .ok ea → ∀ b, b ≠ ea → t.mem.read b = s.mem.read b) ∧
    (∀ c, effectiveAddress x adr s = .error c → ∀ b, t.mem.read b = s.mem.read b) ∧
    (t.status = s.status ∨ ∃ r, t.status = .faulted r)

/-- Frame of CPA (both forms): R24. -/
def Obligations.CompareFrame : Prop :=
  ∀ (s t : State) (r1 r2 x : RegField) (adr : Word),
    (exec (.cpaMem r1 adr x) s = .next t ∨ exec (.cpaReg r1 r2) s = .next t) →
    t.gr = s.gr ∧ (∀ a, t.mem.read a = s.mem.read a) ∧ t.outputs = s.outputs ∧
    (t.status = s.status ∨ ∃ r, t.status = .faulted r)

/-- Frame of JMI, JZE, JUMP, JPL and RET: R24, R27, R198. -/
def Obligations.ControlFrame : Prop :=
  ∀ (s t : State) (x : RegField) (adr : Word),
    (exec (.jmi adr x) s = .next t ∨ exec (.jze adr x) s = .next t ∨ exec (.jump adr x) s = .next t ∨
      exec (.jpl adr x) s = .next t ∨ exec .ret s = .next t) →
    t.gr = s.gr ∧ t.flags = s.flags ∧ (∀ a, t.mem.read a = s.mem.read a) ∧ t.outputs = s.outputs ∧
    (t.status = s.status ∨ t.status = .halted ∨ ∃ r, t.status = .faulted r)

/-- Frame of SVC: R210 (registers, flags, memory: none written). -/
def Obligations.SupervisorFrame : Prop :=
  ∀ (s t : State) (dp lp : Word), exec (.svc dp lp) s = .next t →
    t.gr = s.gr ∧ t.flags = s.flags ∧ (∀ a, t.mem.read a = s.mem.read a) ∧
    (t.outputs = s.outputs ∨ ∃ ws, t.outputs = s.outputs ++ [ws]) ∧
    (t.status = s.status ∨ ∃ r, t.status = .faulted r)

/-- R101 to R103: a machine line that assembles spells one well-formed instruction. -/
def Obligations.AssembledLineDecodes : Prop :=
  ∀ (name : Assembler.Text) (m : Assembler.MachineMnemonic) (a b c : Assembler.Text)
    (es : List Assembler.Emitted) (v : Word), m ≠ .svc → Assembler.machineWords name m a b c = .ok es →
    ∃ i : Instr, decode (es.map fun e => match e with
      | .word w => w
      | .literalRef _ => v
      | .labelRef _ => v) = .ok (i, []) ∧ i.wellFormed = true

/-- R105, R111, R261: the image covers 0 to P + L - 1. -/
def Obligations.ImageIsContiguous : Prop :=
  ∀ (lines : List Assembler.SourceLine) (p : Assembler.Program) (s : Assembler.Assembly),
    Assembler.assemble lines = .ok p → Assembler.allocate 0 lines Assembler.Assembly.empty = .ok s →
    p.image.map Prod.fst = List.range (s.cursor + s.literals.length) ∧ s.cursor + s.literals.length ≤ 65536

/-- R110: each patched address holds the address of its label. -/
def Obligations.LabelPatchesHoldAddresses : Prop :=
  ∀ (lines : List Assembler.SourceLine) (p : Assembler.Program) (s : Assembler.Assembly),
    Assembler.assemble lines = .ok p → Assembler.allocate 0 lines Assembler.Assembly.empty = .ok s →
    ∀ e ∈ s.patches, ∃ v, Assembler.lookupText s.labels e.2 = some v ∧ (e.1, BitVec.ofNat 16 v) ∈ p.image

/-- R111. -/
def Obligations.LiteralPoolInOrder : Prop :=
  ∀ (lines : List Assembler.SourceLine) (p : Assembler.Program) (s : Assembler.Assembly),
    Assembler.assemble lines = .ok p → Assembler.allocate 0 lines Assembler.Assembly.empty = .ok s →
    ∀ (k : Nat) (e : Nat × Word), s.literals[k]? = some e →
      (s.cursor + k, e.2) ∈ p.image ∧ (e.1, BitVec.ofNat 16 (s.cursor + k)) ∈ p.image
end

