-- ==== Sys2Proof/Laws/Encoding.lean ====
section
/-!
SUPPORT. What the decoder reads from a packed first word, and that the opcode map has no two rows with one byte.
-/

namespace Sys2Proof

/-- The opcode byte of a packed word is the one packed. -/
theorem opcodeOf_packWord (op : Opcode) (f1 f2 : RegField) : opcodeOf (packWord op f1 f2) = op.byte := by
  apply BitVec.eq_of_getLsbD_eq
  intro i hi
  have h1 : ¬ 8 + i < 4 := by omega
  have h2 : ¬ 8 + i - 4 < 4 := by omega
  have h3 : 8 + i - 4 - 4 = i := by omega
  simp only [opcodeOf, packWord, BitVec.getLsbD_extractLsb', BitVec.getLsbD_append, h1, h2, h3, hi, if_false, decide_true,
    Bool.true_and]

/-- Bits 7..4 of a packed word are the field packed there. -/
theorem field1_packWord (op : Opcode) (f1 f2 : RegField) : field1 (packWord op f1 f2) = f1 := by
  apply BitVec.eq_of_getLsbD_eq
  intro i hi
  simp only [field1, packWord, BitVec.getLsbD_extractLsb', BitVec.getLsbD_append]
  simp [hi]

/-- Bits 3..0 of a packed word are the field packed there. -/
theorem field2_packWord (op : Opcode) (f1 f2 : RegField) : field2 (packWord op f1 f2) = f2 := by
  apply BitVec.eq_of_getLsbD_eq
  intro i hi
  simp only [field2, packWord, BitVec.getLsbD_extractLsb', BitVec.getLsbD_append]
  simp [hi]

/-- Every row is found by its byte. -/
@[simp] theorem Opcode.ofByte_byte (op : Opcode) : Opcode.ofByte op.byte = some op := by
  cases op <;> decide

/-- A row that is found has the byte it was looked up by. -/
theorem Opcode.byte_of_ofByte {b : OpByte} {op : Opcode} (h : Opcode.ofByte b = some op) : op.byte = b := by
  simpa using List.find?_some h

/-- No two rows of the opcode map have the same byte (R85). -/
theorem Opcode.bytes_distinct : (Opcode.all.map Opcode.byte).Pairwise (· ≠ ·) := by decide

/-- The decoder finds the row of a packed word; the supervisor call also needs its low byte. -/
theorem decodeFirst_packWord {op : Opcode} (h : op ≠ .svc) (f1 f2 : RegField) :
    decodeFirst (packWord op f1 f2) = .ok op := by
  simp [decodeFirst, opcodeOf_packWord, h]

theorem decodeFirst_svc : decodeFirst (packWord .svc 0 Config.svcOutputType) = .ok .svc := by decide

/-- The first word of an accepted instruction carries its row's byte, and for the supervisor call is 0xFF02. -/
theorem decodeFirst_eq_ok {w0 : Word} {op : Opcode} :
    decodeFirst w0 = .ok op ↔
      opcodeOf w0 = op.byte ∧ (op = .svc → field1 w0 = 0 ∧ field2 w0 = Config.svcOutputType) := by
  unfold decodeFirst
  constructor
  · intro h
    cases hb : Opcode.ofByte (opcodeOf w0) with
    | none => rw [hb] at h; cases h
    | some op' =>
      rw [hb] at h
      dsimp only at h
      split at h
      · cases h
      · cases h
        rename_i hn
        exact ⟨(Opcode.byte_of_ofByte hb).symm, fun h' => by_contra fun hc => hn ⟨h', hc⟩⟩
  · rintro ⟨hb, hs⟩
    rw [hb, Opcode.ofByte_byte]
    dsimp only
    exact if_neg fun h => h.2 (hs h.1)

/-- A word is its three fields packed. -/
theorem fields_eq (w : Word) : (opcodeOf w ++ field1 w ++ field2 w : Word) = w := by
  apply BitVec.eq_of_getLsbD_eq
  intro i hi
  simp only [opcodeOf, field1, field2, BitVec.getLsbD_extractLsb', BitVec.getLsbD_append]
  by_cases h1 : i < 4
  · simp [h1]
  · by_cases h2 : i - 4 < 4
    · have : 4 + (i - 4) = i := by omega
      simp [h1, h2, this]
    · have h3 : i - 4 - 4 < 8 := by omega
      have : 8 + (i - 4 - 4) = i := by omega
      simp [h1, h2, h3, this]

end Sys2Proof
end

