-- ==== Sys2Proof/Laws/Memory.lean ====
section
/-!
SUPPORT. The Word Store: what a read gives after a write, and that every memory operation keeps the canonical form.
-/

namespace Sys2Proof.Machine

/-- A read after a write gives the word written at its address and leaves every other address alone (R53). -/
theorem Memory.read_write (m : Memory) (a b v : Word) :
    (m.write a v).read b = if b = a then some v else m.read b := by
  induction m with
  | nil => simp [Memory.write, Memory.read, BitVec.toNat_inj, eq_comm]
  | cons e m ih =>
    obtain ⟨k, w⟩ := e
    by_cases hba : b = a
    · subst hba
      simp only [Memory.write]
      split
      · simp [Memory.read]
      · split
        · simp [Memory.read, *]
        · simp [Memory.read, *]
    · have hne : a.toNat ≠ b.toNat := fun h => hba (BitVec.eq_of_toNat_eq h.symm)
      simp only [Memory.write, hba, if_false] at ih ⊢
      split
      · simp [Memory.read, hne]
      · split
        · rename_i h; simp [Memory.read, h, hne]
        · simp [Memory.read, ih]

@[simp] theorem Memory.read_write_same (m : Memory) (a v : Word) : (m.write a v).read a = some v := by
  simp [Memory.read_write]

theorem Memory.read_write_other (m : Memory) {a b : Word} (v : Word) (h : b ≠ a) :
    (m.write a v).read b = m.read b := by
  simp [Memory.read_write, h]

/-- A lower starting point admits every memory a higher one does. -/
theorem Memory.wfFrom_mono {lo hi : Nat} (h : lo ≤ hi) {m : Memory} (hm : m.wfFrom hi = true) :
    m.wfFrom lo = true := by
  cases m with
  | nil => rfl
  | cons e m =>
    obtain ⟨k, w⟩ := e
    simp only [Memory.wfFrom, Bool.and_eq_true, decide_eq_true_eq] at hm ⊢
    exact ⟨⟨by omega, hm.1.2⟩, hm.2⟩

/-- A write keeps the canonical form, from any starting point not above the address. -/
theorem Memory.wfFrom_write {m : Memory} {lo : Nat} (a v : Word) (ha : lo ≤ a.toNat) (hm : m.wfFrom lo = true) :
    (m.write a v).wfFrom lo = true := by
  have hlt : a.toNat < 65536 := a.isLt
  induction m generalizing lo with
  | nil => simp [Memory.write, Memory.wfFrom, ha, hlt]
  | cons e m ih =>
    obtain ⟨k, w⟩ := e
    simp only [Memory.wfFrom, Bool.and_eq_true, decide_eq_true_eq] at hm
    obtain ⟨⟨hk, hk2⟩, hm⟩ := hm
    simp only [Memory.write]
    split
    · simp only [Memory.wfFrom, Bool.and_eq_true, decide_eq_true_eq]
      exact ⟨⟨ha, hlt⟩, ⟨by omega, hk2⟩, hm⟩
    · split
      · simp only [Memory.wfFrom, Bool.and_eq_true, decide_eq_true_eq]
        exact ⟨⟨hk, hk2⟩, hm⟩
      · simp only [Memory.wfFrom, Bool.and_eq_true, decide_eq_true_eq]
        exact ⟨⟨hk, hk2⟩, ih (by omega) hm⟩

theorem Memory.wf_write {m : Memory} (a v : Word) (hm : m.wf = true) : (m.write a v).wf = true :=
  Memory.wfFrom_write a v (Nat.zero_le _) hm

theorem Memory.wf_writeAll {m : Memory} (image : List (Word × Word)) (hm : m.wf = true) :
    (m.writeAll image).wf = true := by
  induction image generalizing m with
  | nil => exact hm
  | cons e image ih => exact ih (Memory.wf_write e.1 e.2 hm)

theorem placeWords_wf {m : Memory} (a : Word) (ws : List Word) (hm : m.wf = true) : (placeWords m a ws).wf = true := by
  induction ws generalizing m a with
  | nil => exact hm
  | cons w ws ih => exact ih (a + 1) (Memory.wf_write a w hm)

theorem State.reset_mem_wf : State.reset.mem.wf = true := rfl

theorem State.resetAt_mem_wf (entry : Word) : (State.resetAt entry).mem.wf = true := rfl

/-- In canonical form an address is listed exactly when it is read as its word. -/
theorem Memory.mem_iff_read_from {m : Memory} {lo : Nat} (hm : m.wfFrom lo = true) (a w : Word) :
    (a.toNat, w) ∈ m ↔ m.read a = some w := by
  induction m generalizing lo with
  | nil => simp [Memory.read]
  | cons e m ih =>
    obtain ⟨k, u⟩ := e
    simp only [Memory.wfFrom, Bool.and_eq_true, decide_eq_true_eq] at hm
    have key : ∀ lo', Memory.wfFrom lo' m = true → ∀ e ∈ m, lo' ≤ e.1 := by
      clear ih hm
      induction m with
      | nil => simp
      | cons e m ih =>
        intro lo' h f hf
        simp only [Memory.wfFrom, Bool.and_eq_true, decide_eq_true_eq] at h
        rcases List.mem_cons.mp hf with rfl | hf
        · exact h.1.1
        · exact le_trans (by omega) (ih _ h.2 f hf)
    simp only [Memory.read, List.mem_cons, Prod.mk.injEq]
    split
    · rename_i h
      constructor
      · rintro (⟨_, rfl⟩ | hmem)
        · rfl
        · have := key _ hm.2 _ hmem
          simp at this; omega
      · intro h'; exact .inl ⟨h.symm, by simpa using h'.symm⟩
    · rename_i h
      rw [← ih hm.2]
      exact ⟨fun h' => h'.resolve_left (fun h'' => h h''.1.symm), .inr⟩

theorem Memory.mem_iff_read {m : Memory} (hm : m.wf = true) (a w : Word) : (a.toNat, w) ∈ m ↔ m.read a = some w :=
  Memory.mem_iff_read_from hm a w

end Sys2Proof.Machine
end

