-- ==== Sys2Proof/Laws/State.lean ====
section
/-!
SUPPORT. What each update and each shared operation does to each field of the state, one lemma per field, so that no
proof unfolds a record update.
-/

namespace Sys2Proof.Machine

@[simp] theorem State.setPc_pc (s : State) (p : Word) : (s.setPc p).pc = p := rfl
@[simp] theorem State.setPc_gr (s : State) (p : Word) : (s.setPc p).gr = s.gr := rfl
@[simp] theorem State.setPc_flags (s : State) (p : Word) : (s.setPc p).flags = s.flags := rfl
@[simp] theorem State.setPc_mem (s : State) (p : Word) : (s.setPc p).mem = s.mem := rfl
@[simp] theorem State.setPc_status (s : State) (p : Word) : (s.setPc p).status = s.status := rfl
@[simp] theorem State.setPc_outputs (s : State) (p : Word) : (s.setPc p).outputs = s.outputs := rfl

@[simp] theorem State.setReg_pc (s : State) (i : Fin 8) (v : Word) : (s.setReg i v).pc = s.pc := rfl
@[simp] theorem State.setReg_gr (s : State) (i : Fin 8) (v : Word) : (s.setReg i v).gr = s.gr.set i ⟨v, true⟩ := rfl
@[simp] theorem State.setReg_flags (s : State) (i : Fin 8) (v : Word) : (s.setReg i v).flags = s.flags := rfl
@[simp] theorem State.setReg_mem (s : State) (i : Fin 8) (v : Word) : (s.setReg i v).mem = s.mem := rfl
@[simp] theorem State.setReg_status (s : State) (i : Fin 8) (v : Word) : (s.setReg i v).status = s.status := rfl
@[simp] theorem State.setReg_outputs (s : State) (i : Fin 8) (v : Word) : (s.setReg i v).outputs = s.outputs := rfl

@[simp] theorem State.putFlags_pc (s : State) (f : Flags) : (s.putFlags f).pc = s.pc := rfl
@[simp] theorem State.putFlags_gr (s : State) (f : Flags) : (s.putFlags f).gr = s.gr := rfl
@[simp] theorem State.putFlags_flags (s : State) (f : Flags) : (s.putFlags f).flags = f := rfl
@[simp] theorem State.putFlags_mem (s : State) (f : Flags) : (s.putFlags f).mem = s.mem := rfl
@[simp] theorem State.putFlags_status (s : State) (f : Flags) : (s.putFlags f).status = s.status := rfl
@[simp] theorem State.putFlags_outputs (s : State) (f : Flags) : (s.putFlags f).outputs = s.outputs := rfl

@[simp] theorem State.setMem_pc (s : State) (m : Memory) : (s.setMem m).pc = s.pc := rfl
@[simp] theorem State.setMem_gr (s : State) (m : Memory) : (s.setMem m).gr = s.gr := rfl
@[simp] theorem State.setMem_flags (s : State) (m : Memory) : (s.setMem m).flags = s.flags := rfl
@[simp] theorem State.setMem_mem (s : State) (m : Memory) : (s.setMem m).mem = m := rfl
@[simp] theorem State.setMem_status (s : State) (m : Memory) : (s.setMem m).status = s.status := rfl
@[simp] theorem State.setMem_outputs (s : State) (m : Memory) : (s.setMem m).outputs = s.outputs := rfl

@[simp] theorem State.setStatus_pc (s : State) (st : Status) : (s.setStatus st).pc = s.pc := rfl
@[simp] theorem State.setStatus_gr (s : State) (st : Status) : (s.setStatus st).gr = s.gr := rfl
@[simp] theorem State.setStatus_flags (s : State) (st : Status) : (s.setStatus st).flags = s.flags := rfl
@[simp] theorem State.setStatus_mem (s : State) (st : Status) : (s.setStatus st).mem = s.mem := rfl
@[simp] theorem State.setStatus_status (s : State) (st : Status) : (s.setStatus st).status = st := rfl
@[simp] theorem State.setStatus_outputs (s : State) (st : Status) : (s.setStatus st).outputs = s.outputs := rfl

@[simp] theorem State.appendOutput_pc (s : State) (ws : List Word) : (s.appendOutput ws).pc = s.pc := rfl
@[simp] theorem State.appendOutput_gr (s : State) (ws : List Word) : (s.appendOutput ws).gr = s.gr := rfl
@[simp] theorem State.appendOutput_flags (s : State) (ws : List Word) : (s.appendOutput ws).flags = s.flags := rfl
@[simp] theorem State.appendOutput_mem (s : State) (ws : List Word) : (s.appendOutput ws).mem = s.mem := rfl
@[simp] theorem State.appendOutput_status (s : State) (ws : List Word) : (s.appendOutput ws).status = s.status := rfl
@[simp] theorem State.appendOutput_outputs (s : State) (ws : List Word) : (s.appendOutput ws).outputs = s.outputs ++ [ws] := rfl

@[simp] theorem advance_pc (s : State) (n : Nat) : (advance n s).pc = s.pc + BitVec.ofNat 16 n := rfl
@[simp] theorem advance_gr (s : State) (n : Nat) : (advance n s).gr = s.gr := rfl
@[simp] theorem advance_flags (s : State) (n : Nat) : (advance n s).flags = s.flags := rfl
@[simp] theorem advance_mem (s : State) (n : Nat) : (advance n s).mem = s.mem := rfl
@[simp] theorem advance_status (s : State) (n : Nat) : (advance n s).status = s.status := rfl
@[simp] theorem advance_outputs (s : State) (n : Nat) : (advance n s).outputs = s.outputs := rfl

@[simp] theorem jumpTo_pc (s : State) (t : Word) : (jumpTo t s).pc = t := rfl
@[simp] theorem jumpTo_gr (s : State) (t : Word) : (jumpTo t s).gr = s.gr := rfl
@[simp] theorem jumpTo_flags (s : State) (t : Word) : (jumpTo t s).flags = s.flags := rfl
@[simp] theorem jumpTo_mem (s : State) (t : Word) : (jumpTo t s).mem = s.mem := rfl
@[simp] theorem jumpTo_status (s : State) (t : Word) : (jumpTo t s).status = s.status := rfl
@[simp] theorem jumpTo_outputs (s : State) (t : Word) : (jumpTo t s).outputs = s.outputs := rfl

@[simp] theorem halt_pc (s : State) : (halt s).pc = s.pc := rfl
@[simp] theorem halt_gr (s : State) : (halt s).gr = s.gr := rfl
@[simp] theorem halt_flags (s : State) : (halt s).flags = s.flags := rfl
@[simp] theorem halt_mem (s : State) : (halt s).mem = s.mem := rfl
@[simp] theorem halt_status (s : State) : (halt s).status = .halted := rfl
@[simp] theorem halt_outputs (s : State) : (halt s).outputs = s.outputs := rfl

@[simp] theorem output_pc (s : State) (ws : List Word) : (output ws s).pc = s.pc := rfl
@[simp] theorem output_gr (s : State) (ws : List Word) : (output ws s).gr = s.gr := rfl
@[simp] theorem output_flags (s : State) (ws : List Word) : (output ws s).flags = s.flags := rfl
@[simp] theorem output_mem (s : State) (ws : List Word) : (output ws s).mem = s.mem := rfl
@[simp] theorem output_status (s : State) (ws : List Word) : (output ws s).status = s.status := rfl
@[simp] theorem output_outputs (s : State) (ws : List Word) : (output ws s).outputs = s.outputs ++ [ws] := rfl

@[simp] theorem memWrite_pc (s : State) (a v : Word) : (memWrite a v s).pc = s.pc := rfl
@[simp] theorem memWrite_gr (s : State) (a v : Word) : (memWrite a v s).gr = s.gr := rfl
@[simp] theorem memWrite_flags (s : State) (a v : Word) : (memWrite a v s).flags = s.flags := rfl
@[simp] theorem memWrite_mem (s : State) (a v : Word) : (memWrite a v s).mem = s.mem.write a v := rfl
@[simp] theorem memWrite_status (s : State) (a v : Word) : (memWrite a v s).status = s.status := rfl
@[simp] theorem memWrite_outputs (s : State) (a v : Word) : (memWrite a v s).outputs = s.outputs := rfl

@[simp] theorem setFlags_pc (s : State) (r : Int) : (setFlags r s).pc = s.pc := rfl
@[simp] theorem setFlags_gr (s : State) (r : Int) : (setFlags r s).gr = s.gr := rfl
@[simp] theorem setFlags_flags (s : State) (r : Int) : (setFlags r s).flags = flagsOf r := rfl
@[simp] theorem setFlags_mem (s : State) (r : Int) : (setFlags r s).mem = s.mem := rfl
@[simp] theorem setFlags_status (s : State) (r : Int) : (setFlags r s).status = s.status := rfl
@[simp] theorem setFlags_outputs (s : State) (r : Int) : (setFlags r s).outputs = s.outputs := rfl

@[simp] theorem takeFault_pc (s : State) (c : FaultCause) : (takeFault c s).pc = s.pc := rfl
@[simp] theorem takeFault_gr (s : State) (c : FaultCause) : (takeFault c s).gr = s.gr := rfl
@[simp] theorem takeFault_flags (s : State) (c : FaultCause) : (takeFault c s).flags = s.flags := rfl
@[simp] theorem takeFault_mem (s : State) (c : FaultCause) : (takeFault c s).mem = s.mem := rfl
@[simp] theorem takeFault_status (s : State) (c : FaultCause) : (takeFault c s).status = .faulted ⟨c, s.pc, s.mem.read s.pc⟩ := rfl
@[simp] theorem takeFault_outputs (s : State) (c : FaultCause) : (takeFault c s).outputs = s.outputs := rfl

end Sys2Proof.Machine
end

