-- ==== Sys2Proof/Laws/Ops.lean ====
section
/-!
SUPPORT. One lemma per shared operation that says everything it can do, in the terms of Safety.lean: register and
memory access, the effective address, the operands of each shape, the block read, the commit.
-/

namespace Sys2Proof.Machine

/-! ### Sequencing -/

@[simp] theorem bind_ok {ε α β : Type} (a : α) (f : α → Except ε β) : (Except.ok a >>= f) = f a := rfl

@[simp] theorem bind_error {ε α β : Type} (e : ε) (f : α → Except ε β) : ((Except.error e : Except ε α) >>= f) = .error e :=
  rfl

/-- What a sequence that answers has gone through. -/
theorem bind_eq_ok {ε α β : Type} {x : Except ε α} {f : α → Except ε β} {b : β} :
    (x >>= f) = .ok b ↔ ∃ a, x = .ok a ∧ f a = .ok b := by
  cases x <;> simp

/-- Where a sequence that raises has raised. -/
theorem bind_eq_error {ε α β : Type} {x : Except ε α} {f : α → Except ε β} {e : ε} :
    (x >>= f) = .error e ↔ x = .error e ∨ ∃ a, x = .ok a ∧ f a = .error e := by
  cases x <;> simp

/-! ### The commit and the fault entry -/

@[simp] theorem commit_ok (s t : State) : commit s (.ok t) = .next t := rfl

@[simp] theorem commit_error (s : State) (c : FaultCause) : commit s (.error c) = .next (faultedAs c s) := rfl

theorem takeFault_eq (c : FaultCause) (s : State) : takeFault c s = faultedAs c s := rfl

/-- A commit always answers a next state: the one built, or the fault's. -/
theorem commit_eq_next {s t : State} {r : Except FaultCause State} :
    commit s r = .next t ↔ r = .ok t ∨ ∃ c, r = .error c ∧ t = faultedAs c s := by
  cases r <;> simp [eq_comm]

@[simp] theorem faultedAs_pc (s : State) (c : FaultCause) : (faultedAs c s).pc = s.pc := rfl
@[simp] theorem faultedAs_gr (s : State) (c : FaultCause) : (faultedAs c s).gr = s.gr := rfl
@[simp] theorem faultedAs_flags (s : State) (c : FaultCause) : (faultedAs c s).flags = s.flags := rfl
@[simp] theorem faultedAs_mem (s : State) (c : FaultCause) : (faultedAs c s).mem = s.mem := rfl
@[simp] theorem faultedAs_outputs (s : State) (c : FaultCause) : (faultedAs c s).outputs = s.outputs := rfl
@[simp] theorem faultedAs_status (s : State) (c : FaultCause) :
    (faultedAs c s).status = .faulted ⟨c, s.pc, s.mem.read s.pc⟩ := rfl

/-! ### Registers -/

/-- The index check answers the register the field names. -/
theorem registerIndex_eq_ok {f : RegField} {i : Fin 8} : registerIndex f = .ok i ↔ f.toNat = i.val := by
  unfold registerIndex
  split
  · simp [Fin.ext_iff]
  · simp; omega

theorem registerIndex_eq_error {f : RegField} {c : FaultCause} :
    registerIndex f = .error c ↔ 8 ≤ f.toNat ∧ c = .undefinedRegister f := by
  unfold registerIndex
  split
  · simp; omega
  · simp [eq_comm]; omega

/-- A register read answers exactly what the field's register holds. -/
theorem readReg_eq_ok {f : RegField} {s : State} {v : Word} : readReg f s = .ok v ↔ RegHolds s f v := by
  unfold readReg RegHolds
  rw [bind_eq_ok]
  refine exists_congr fun i => ?_
  rw [registerIndex_eq_ok]
  rcases h : s.gr[i] with ⟨w, _ | _⟩ <;> simp

/-- A register read raises exactly the faults of R12, the index first. -/
theorem readReg_eq_error {f : RegField} {s : State} {c : FaultCause} :
    readReg f s = .error c ↔ RegReadRaises s f c := by
  unfold readReg RegReadRaises
  rw [bind_eq_error, registerIndex_eq_error]
  refine or_congr Iff.rfl (exists_congr fun i => ?_)
  rw [registerIndex_eq_ok]
  rcases h : s.gr[i] with ⟨w, _ | _⟩ <;> simp [eq_comm]

/-- A register write answers the state in which that register holds the word. -/
theorem writeReg_eq_ok {f : RegField} {v : Word} {s t : State} :
    writeReg f v s = .ok t ↔ ∃ i : Fin 8, f.toNat = i.val ∧ t = s.setReg i v := by
  unfold writeReg
  simp only [bind_eq_ok, registerIndex_eq_ok, Except.ok.injEq]
  exact exists_congr fun i => and_congr Iff.rfl eq_comm

theorem writeReg_eq_error {f : RegField} {v : Word} {s : State} {c : FaultCause} :
    writeReg f v s = .error c ↔ 8 ≤ f.toNat ∧ c = .undefinedRegister f := by
  unfold writeReg
  simp [bind_eq_error, registerIndex_eq_error]

/-! ### Memory -/

theorem memRead_eq_ok {a : Word} {s : State} {w : Word} : memRead a s = .ok w ↔ s.mem.read a = some w := by
  unfold memRead
  split <;> simp [*]

theorem memRead_eq_error {a : Word} {s : State} {c : FaultCause} :
    memRead a s = .error c ↔ s.mem.read a = none ∧ c = .uninitializedMemory a := by
  unfold memRead
  split <;> simp [*, eq_comm]

/-! ### Integers and the effective address -/

theorem trunc16_toNat_add (a b : Word) : trunc16 (zext16 a + zext16 b) = a + b := by
  apply BitVec.eq_of_toNat_eq
  simp only [trunc16, zext16, BitVec.toNat_ofInt, BitVec.toNat_add]
  omega

theorem trunc16_toNat_sub (a b : Word) : trunc16 (zext16 a - zext16 b) = a - b := by
  apply BitVec.eq_of_toNat_eq
  simp only [trunc16, zext16, BitVec.toNat_ofInt, BitVec.toNat_sub]
  have := a.isLt
  have := b.isLt
  omega

theorem sext16_eq_toInt (w : Word) : sext16 w = w.toInt := by
  simp only [sext16, BitVec.toInt_eq_toNat_cond]
  have := w.isLt
  split <;> split <;> omega

/-- The sum of the effective address is the 16-bit sum. -/
theorem effectiveAddress_eq_ok {x : RegField} {adr ea : Word} {s : State} :
    effectiveAddress x adr s = .ok ea ↔ ∃ k, IndexHolds s x k ∧ ea = adr + k := by
  unfold effectiveAddress IndexHolds
  rcases eq_or_ne x 0 with rfl | hx
  · rw [if_pos rfl]
    constructor
    · rintro h
      cases h
      exact ⟨0, .inl ⟨rfl, rfl⟩, (BitVec.add_zero adr).symm⟩
    · rintro ⟨k, ⟨-, rfl⟩ | ⟨h, -⟩, rfl⟩
      · simp
      · exact absurd rfl h
  · rw [if_neg hx, bind_eq_ok]
    refine exists_congr fun k => ?_
    rw [readReg_eq_ok, trunc16_toNat_add, Except.ok.injEq]
    exact and_congr ⟨fun h => .inr ⟨hx, h⟩, fun h => h.elim (fun h => absurd h.1 hx) (fun h => h.2)⟩ eq_comm

theorem effectiveAddress_eq_error {x : RegField} {adr : Word} {s : State} {c : FaultCause} :
    effectiveAddress x adr s = .error c ↔ IndexRaises s x c := by
  unfold effectiveAddress IndexRaises
  rcases eq_or_ne x 0 with rfl | hx
  · rw [if_pos rfl]
    simp
  · rw [if_neg hx, bind_eq_error, readReg_eq_error]
    constructor
    · rintro (h | ⟨k, -, h⟩)
      · exact ⟨hx, h⟩
      · cases h
    · exact fun h => .inl h.2

/-! ### Flags -/

/-- The flags of a stored word (R126). -/
theorem flagsOf_sext16 (w : Word) : flagsOf (sext16 w) = wordFlags w := by
  simp only [flagsOf, wordFlags, sext16_eq_toInt]
  have h1 : decide (w.toInt < 0) = w.msb := by
    rw [Bool.eq_iff_iff, decide_eq_true_eq, BitVec.msb_eq_toInt, decide_eq_true_eq]
  have h2 : (w.toInt = 0) ↔ w = 0 := by
    rw [← BitVec.toInt_inj]; simp
  simp [h1, h2]

/-- The flags of a comparison are the signed order of the operands (R174). -/
theorem flagsOf_compareWords (a b : Word) : flagsOf (compareWords a b) = orderFlags a b := by
  simp only [flagsOf, orderFlags, compareWords, sext16_eq_toInt]
  have h1 : (a.toInt - b.toInt < 0) ↔ a.slt b = true := by
    rw [BitVec.slt_iff_toInt_lt]; omega
  have h2 : (a.toInt - b.toInt = 0) ↔ a = b := by
    rw [← BitVec.toInt_inj]; omega
  simp only [h1, h2]
  simp

theorem readSf_eq_ok {s : State} {b : Bool} : readSf s = .ok b ↔ s.flags.sf = ⟨b, true⟩ := by
  unfold readSf
  rcases h : s.flags.sf with ⟨v, _ | _⟩ <;> simp

theorem readSf_eq_error {s : State} {c : FaultCause} :
    readSf s = .error c ↔ s.flags.sf.written = false ∧ c = .unwrittenRegister .sf := by
  unfold readSf
  rcases h : s.flags.sf with ⟨v, _ | _⟩ <;> simp [eq_comm]

theorem readZf_eq_ok {s : State} {b : Bool} : readZf s = .ok b ↔ s.flags.zf = ⟨b, true⟩ := by
  unfold readZf
  rcases h : s.flags.zf with ⟨v, _ | _⟩ <;> simp

theorem readZf_eq_error {s : State} {c : FaultCause} :
    readZf s = .error c ↔ s.flags.zf.written = false ∧ c = .unwrittenRegister .zf := by
  unfold readZf
  rcases h : s.flags.zf with ⟨v, _ | _⟩ <;> simp [eq_comm]

/-! ### Operands of the shared shapes -/

theorem memOperands_eq_ok {r1 x : RegField} {adr a b : Word} {s : State} :
    memOperands r1 adr x s = .ok (a, b) ↔
      ∃ k, IndexHolds s x k ∧ RegHolds s r1 a ∧ s.mem.read (adr + k) = some b := by
  unfold memOperands
  simp only [bind_eq_ok, effectiveAddress_eq_ok, readReg_eq_ok, memRead_eq_ok, Except.ok.injEq, Prod.mk.injEq]
  constructor
  · rintro ⟨_, ⟨k, hk, rfl⟩, _, ha, _, hb, rfl, rfl⟩; exact ⟨k, hk, ha, hb⟩
  · rintro ⟨k, hk, ha, hb⟩; exact ⟨_, ⟨k, hk, rfl⟩, _, ha, _, hb, rfl, rfl⟩

/-- The faults of an RM instruction that reads r1: index field, then r1, then memory. -/
theorem memOperands_eq_error {r1 x : RegField} {adr : Word} {s : State} {c : FaultCause} :
    memOperands r1 adr x s = .error c ↔
      IndexRaises s x c ∨ (∃ k, IndexHolds s x k ∧ RegReadRaises s r1 c) ∨
        ∃ k a, IndexHolds s x k ∧ RegHolds s r1 a ∧ s.mem.read (adr + k) = none ∧ c = .uninitializedMemory (adr + k) := by
  unfold memOperands
  simp only [bind_eq_error, effectiveAddress_eq_error, effectiveAddress_eq_ok, readReg_eq_error, readReg_eq_ok,
    memRead_eq_error, reduceCtorEq, and_false, exists_false, or_false]
  constructor
  · rintro (h | ⟨_, ⟨k, hk, rfl⟩, h | ⟨a, ha, h⟩⟩)
    · exact .inl h
    · exact .inr (.inl ⟨k, hk, h⟩)
    · exact .inr (.inr ⟨k, a, hk, ha, h⟩)
  · rintro (h | ⟨k, hk, h⟩ | ⟨k, a, hk, ha, h⟩)
    · exact .inl h
    · exact .inr ⟨_, ⟨k, hk, rfl⟩, .inl h⟩
    · exact .inr ⟨_, ⟨k, hk, rfl⟩, .inr ⟨a, ha, h⟩⟩

theorem regOperands_eq_ok {r1 r2 : RegField} {a b : Word} {s : State} :
    regOperands r1 r2 s = .ok (a, b) ↔ RegHolds s r1 a ∧ RegHolds s r2 b := by
  unfold regOperands
  simp only [bind_eq_ok, readReg_eq_ok, Except.ok.injEq, Prod.mk.injEq]
  constructor
  · rintro ⟨_, ha, _, hb, rfl, rfl⟩; exact ⟨ha, hb⟩
  · rintro ⟨ha, hb⟩; exact ⟨_, ha, _, hb, rfl, rfl⟩

/-- The faults of an RR instruction that reads r1: r1, then r2. -/
theorem regOperands_eq_error {r1 r2 : RegField} {s : State} {c : FaultCause} :
    regOperands r1 r2 s = .error c ↔ RegReadRaises s r1 c ∨ ∃ a, RegHolds s r1 a ∧ RegReadRaises s r2 c := by
  unfold regOperands
  simp only [bind_eq_error, readReg_eq_error, readReg_eq_ok, reduceCtorEq, and_false, exists_false, or_false]

theorem writeResult_eq_ok {r1 : RegField} {res : Word} {n : Nat} {s t : State} :
    writeResult r1 res n s = .ok t ↔
      ∃ i : Fin 8, r1.toNat = i.val ∧
        t = { s with pc := s.pc + BitVec.ofNat 16 n, gr := s.gr.set i ⟨res, true⟩, flags := wordFlags res } := by
  unfold writeResult
  simp only [bind_eq_ok, writeReg_eq_ok, Except.ok.injEq]
  constructor
  · rintro ⟨_, ⟨i, hi, rfl⟩, rfl⟩
    exact ⟨i, hi, by rw [← flagsOf_sext16]; rfl⟩
  · rintro ⟨i, hi, rfl⟩
    exact ⟨_, ⟨i, hi, rfl⟩, by rw [← flagsOf_sext16]; rfl⟩

theorem writeResult_eq_error {r1 : RegField} {res : Word} {n : Nat} {s : State} {c : FaultCause} :
    writeResult r1 res n s = .error c ↔ 8 ≤ r1.toNat ∧ c = .undefinedRegister r1 := by
  unfold writeResult
  simp [bind_eq_error, writeReg_eq_error]

/-! ### Blocks of words and the output length -/

/-- The address `i` words after the next one is `i + 1` words on. -/
theorem next_offset (a : Word) (i : Nat) : a + 1 + BitVec.ofNat 16 i = a + BitVec.ofNat 16 (i + 1) := by
  rw [BitVec.ofNat_add, BitVec.add_assoc, BitVec.add_comm (BitVec.ofNat 16 i)]
  rfl

/-- A block read answers the words that memory holds at its addresses, all of them. -/
theorem readBlock_eq_ok {a : Word} {n : Nat} {s : State} {ws : List Word} :
    readBlock a n s = .ok ws ↔ ws.length = n ∧ ∀ i, i < n → s.mem.read (a + BitVec.ofNat 16 i) = ws[i]? := by
  induction n generalizing a ws with
  | zero => cases ws <;> simp [readBlock]
  | succ n ih =>
    simp only [readBlock, bind_eq_ok, memRead_eq_ok, Except.ok.injEq, ih]
    constructor
    · rintro ⟨w, hw, us, ⟨hl, hr⟩, rfl⟩
      refine ⟨by simp [hl], fun i hi => ?_⟩
      cases i with
      | zero => simpa using hw
      | succ i => rw [← next_offset]; simpa only [List.getElem?_cons_succ] using hr i (by omega)
    · rintro ⟨hl, hr⟩
      cases ws with
      | nil => simp at hl
      | cons w us =>
        refine ⟨w, by simpa using hr 0 (by omega), us, ⟨by simpa using hl, fun i hi => ?_⟩, rfl⟩
        rw [next_offset]; simpa only [List.getElem?_cons_succ] using hr (i + 1) (by omega)

/-- A block read raises at the first address that holds no value. -/
theorem readBlock_eq_error {a : Word} {n : Nat} {s : State} {c : FaultCause} :
    readBlock a n s = .error c ↔
      ∃ i, i < n ∧ s.mem.read (a + BitVec.ofNat 16 i) = none ∧
        (∀ j, j < i → s.mem.read (a + BitVec.ofNat 16 j) ≠ none) ∧ c = .uninitializedMemory (a + BitVec.ofNat 16 i) := by
  induction n generalizing a with
  | zero => simp [readBlock]
  | succ n ih =>
    simp only [readBlock, bind_eq_error, memRead_eq_error, memRead_eq_ok, ih, reduceCtorEq, and_false, exists_false,
      or_false]
    simp only [next_offset]
    constructor
    · rintro (⟨h, rfl⟩ | ⟨w, hw, i, hi, hn, hj, rfl⟩)
      · exact ⟨0, by omega, by simpa using h, by simp, by simp⟩
      · refine ⟨i + 1, by omega, hn, fun j hj' => ?_, rfl⟩
        cases j with
        | zero => simp [hw]
        | succ j => exact hj j (by omega)
    · rintro ⟨i, hi, hn, hj, rfl⟩
      cases i with
      | zero => exact .inl ⟨by simpa using hn, by simp⟩
      | succ i =>
        have h0 := hj 0 (by omega)
        obtain ⟨w, hw⟩ := Option.ne_none_iff_exists'.mp h0
        exact .inr ⟨w, by simpa using hw, i, by omega, hn, fun j hj' => hj (j + 1) (by omega), rfl⟩

theorem outputLength_eq_ok {lw : Word} {n : Nat} : outputLength lw = .ok n ↔ lw.toNat < 0x8000 ∧ lw.toNat = n := by
  have := lw.isLt
  unfold outputLength sext16
  split_ifs <;> simp <;> omega

theorem outputLength_eq_error {lw : Word} {c : FaultCause} :
    outputLength lw = .error c ↔ 0x8000 ≤ lw.toNat ∧ c = .invalidOutputLength lw := by
  have := lw.isLt
  unfold outputLength sext16
  split_ifs <;> simp [eq_comm] <;> omega

end Sys2Proof.Machine
end

