-- ==== Sys2Proof/Laws/Step.lean ====
section
/-!
SUPPORT. What a fetch, an instruction and a step can answer.
-/

namespace Sys2Proof.Machine

/-! ### Decoding -/

@[simp] theorem orFault_ok {α : Type} (pc : Word) (a : α) : orFault pc (.ok a) = .ok a := rfl

@[simp] theorem orFault_error {α : Type} (pc : Word) (e : Reject) :
    orFault pc (.error e : Except Reject α) = .error (rejectCause pc e) := rfl

theorem orFault_eq_ok {α : Type} {pc : Word} {r : Except Reject α} {a : α} : orFault pc r = .ok a ↔ r = .ok a := by
  cases r <;> simp

theorem orFault_eq_error {α : Type} {pc : Word} {r : Except Reject α} {c : FaultCause} :
    orFault pc r = .error c ↔ ∃ e, r = .error e ∧ c = rejectCause pc e := by
  cases r <;> simp [eq_comm]

/-- A decoded list begins with a first word that fixes the row, and holds the row's words. -/
theorem decode_eq_ok {ws rest : List Word} {i : Instr} :
    decode ws = .ok (i, rest) ↔
      ∃ w0 tl op, ws = w0 :: tl ∧ decodeFirst w0 = .ok op ∧ op.words ≤ tl.length + 1 ∧
        i = op.instr w0 (tl.getD 0 0) (tl.getD 1 0) ∧ rest = tl.drop (op.words - 1) := by
  cases ws with
  | nil => simp [decode]
  | cons w0 tl =>
    simp only [decode]
    cases h : decodeFirst w0 with
    | error r => simp [h]
    | ok op =>
      dsimp only
      split
      · constructor
        · intro h'; cases h'
        · rintro ⟨_, _, op', hws, hop, hle, -⟩
          cases hws
          rw [h] at hop
          cases hop
          omega
      · constructor
        · intro h'
          cases h'
          exact ⟨w0, tl, op, rfl, h, by omega, rfl, rfl⟩
        · rintro ⟨_, _, op', hws, hop, hle, rfl, rfl⟩
          cases hws
          rw [h] at hop
          cases hop
          rfl

/-! ### Fetch -/

/-- A fetch answers the instruction whose words stand in memory from PC on. -/
theorem fetch_eq_ok {s : State} {i : Instr} :
    fetch s = .ok i ↔
      ∃ w0 op ws, s.mem.read s.pc = some w0 ∧ decodeFirst w0 = .ok op ∧
        readBlock (s.pc + 1) (op.words - 1) s = .ok ws ∧ i = op.instr w0 (ws.getD 0 0) (ws.getD 1 0) := by
  unfold fetch
  simp only [bind_eq_ok, memRead_eq_ok, orFault_eq_ok]
  constructor
  · rintro ⟨w0, hw0, op, hop, ws, hws, ⟨i', r⟩, hd, h⟩
    cases h
    obtain ⟨_, _, op', hw, hop', -, rfl, -⟩ := decode_eq_ok.mp hd
    cases hw
    rw [hop] at hop'
    cases hop'
    exact ⟨w0, op, ws, hw0, hop, hws, rfl⟩
  · rintro ⟨w0, op, ws, hw0, hop, hws, rfl⟩
    refine ⟨w0, hw0, op, hop, ws, hws, (_, ws.drop (op.words - 1)), ?_, rfl⟩
    have := (readBlock_eq_ok.mp hws).1
    exact decode_eq_ok.mpr ⟨w0, ws, op, rfl, hop, by omega, rfl, rfl⟩

/-- A fetch raises, in this order: the first word, the opcode, an operand word (R129). -/
theorem fetch_eq_error {s : State} {c : FaultCause} :
    fetch s = .error c ↔
      (s.mem.read s.pc = none ∧ c = .uninitializedMemory s.pc) ∨
        (∃ w0 e, s.mem.read s.pc = some w0 ∧ decodeFirst w0 = .error e ∧ c = rejectCause s.pc e) ∨
        ∃ w0 op, s.mem.read s.pc = some w0 ∧ decodeFirst w0 = .ok op ∧
          readBlock (s.pc + 1) (op.words - 1) s = .error c := by
  unfold fetch
  simp only [bind_eq_error, memRead_eq_error, memRead_eq_ok, orFault_eq_error, orFault_eq_ok, reduceCtorEq, and_false,
    exists_false, or_false]
  refine or_congr Iff.rfl ?_
  constructor
  · rintro ⟨w0, hw0, ⟨e, he, rfl⟩ | ⟨op, hop, h | ⟨ws, hws, e, he, -⟩⟩⟩
    · exact .inl ⟨w0, e, hw0, he, rfl⟩
    · exact .inr ⟨w0, op, hw0, hop, h⟩
    · exfalso
      have hlen := (readBlock_eq_ok.mp hws).1
      have : decode (w0 :: ws) = .ok (op.instr w0 (ws.getD 0 0) (ws.getD 1 0), ws.drop (op.words - 1)) :=
        decode_eq_ok.mpr ⟨w0, ws, op, rfl, hop, by omega, rfl, rfl⟩
      rw [this] at he
      cases he
  · rintro (⟨w0, e, hw0, he, rfl⟩ | ⟨w0, op, hw0, hop, h⟩)
    · exact ⟨w0, hw0, .inl ⟨e, he, rfl⟩⟩
    · exact ⟨w0, hw0, .inr ⟨op, hop, .inl h⟩⟩

/-! ### Instructions and steps -/

/-- Every instruction ends in a commit of some attempt begun in the state it runs in. -/
theorem exec_eq_commit (i : Instr) (s : State) : ∃ r, exec i s = commit s r := by
  cases i with
  | ret => exact ⟨.ok (halt s), rfl⟩
  | _ => exact ⟨_, rfl⟩

/-- Every instruction answers a next state. -/
theorem exec_answers (i : Instr) (s : State) : ∃ t, exec i s = .next t := by
  obtain ⟨r, h⟩ := exec_eq_commit i s
  cases r with
  | ok t => exact ⟨t, h⟩
  | error c => exact ⟨_, h⟩

/-- What a step does: nothing when stopped, the decoded instruction when running, or the fault of the fetch. -/
theorem step_cases (s : State) :
    (s.status ≠ .running ∧ step s = .next s) ∨
      (s.status = .running ∧ ∃ i, fetch s = .ok i ∧ step s = exec i s) ∨
        (s.status = .running ∧ ∃ c, fetch s = .error c ∧ step s = .next (faultedAs c s)) := by
  unfold step
  cases hs : s.status with
  | halted => exact .inl ⟨by simp, rfl⟩
  | faulted r => exact .inl ⟨by simp, rfl⟩
  | running =>
    cases hf : fetch s with
    | ok i => exact .inr (.inl ⟨rfl, i, rfl, rfl⟩)
    | error c => exact .inr (.inr ⟨rfl, c, rfl, rfl⟩)

theorem step_stopped {s : State} (h : s.status ≠ .running) : step s = .next s := by
  rcases step_cases s with ⟨-, h'⟩ | ⟨h', -⟩ | ⟨h', -⟩
  · exact h'
  · exact absurd h' h
  · exact absurd h' h

theorem step_fetched {s : State} {i : Instr} (h : s.status = .running) (hf : fetch s = .ok i) : step s = exec i s := by
  unfold step
  rw [h, hf]

theorem step_unfetched {s : State} {c : FaultCause} (h : s.status = .running) (hf : fetch s = .error c) :
    step s = .next (faultedAs c s) := by
  unfold step
  rw [h, hf]
  rfl

/-- The probe's placement keeps the canonical form. -/
theorem withFetchWord_mem_wf (s : State) (nbits w : Nat) (h : s.mem.wf = true) :
    (s.withFetchWord nbits w).mem.wf = true := placeWords_wf _ _ h

end Sys2Proof.Machine
end

