-- ==== Sys2Proof/Laws/Exec.lean ====
section
/-!
SUPPORT. Once and for all: what an instruction can do. Every claim about the next states of an instruction is a case
analysis over `Effect`.
-/

namespace Sys2Proof.Machine

/-! ### The faults an instruction can raise -/

/-- An attempt that never raises InvalidExternalInput, the one fault no instruction has (R238). -/
def NotExternal {α : Type} (r : Except FaultCause α) : Prop := ∀ c, r = .error c → c ≠ .invalidExternalInput

theorem NotExternal.ok {α : Type} (a : α) : NotExternal (.ok a) := by
  intro c h
  cases h

theorem NotExternal.bind {α β : Type} {x : Except FaultCause α} {f : α → Except FaultCause β} (hx : NotExternal x)
    (hf : ∀ a, NotExternal (f a)) : NotExternal (x >>= f) := by
  intro c h
  rcases bind_eq_error.mp h with h | ⟨a, -, h⟩
  · exact hx c h
  · exact hf a c h

theorem RegReadRaises.notExternal {s : State} {f : RegField} {c : FaultCause} (h : RegReadRaises s f c) :
    c ≠ .invalidExternalInput := by
  rcases h with ⟨-, rfl⟩ | ⟨i, -, -, rfl⟩ <;> simp

theorem notExternal_readReg (f : RegField) (s : State) : NotExternal (readReg f s) :=
  fun _ h => (readReg_eq_error.mp h).notExternal

theorem notExternal_writeReg (f : RegField) (v : Word) (s : State) : NotExternal (writeReg f v s) := by
  intro c h
  rw [(writeReg_eq_error.mp h).2]
  simp

theorem notExternal_memRead (a : Word) (s : State) : NotExternal (memRead a s) := by
  intro c h
  rw [(memRead_eq_error.mp h).2]
  simp

theorem notExternal_effectiveAddress (x : RegField) (adr : Word) (s : State) :
    NotExternal (effectiveAddress x adr s) := fun _ h => (effectiveAddress_eq_error.mp h).2.notExternal

theorem notExternal_readSf (s : State) : NotExternal (readSf s) := by
  intro c h
  rw [(readSf_eq_error.mp h).2]
  simp

theorem notExternal_readZf (s : State) : NotExternal (readZf s) := by
  intro c h
  rw [(readZf_eq_error.mp h).2]
  simp

theorem notExternal_memOperands (r1 : RegField) (adr : Word) (x : RegField) (s : State) :
    NotExternal (memOperands r1 adr x s) :=
  (notExternal_effectiveAddress x adr s).bind fun _ => (notExternal_readReg r1 s).bind fun _ =>
    (notExternal_memRead _ s).bind fun _ => .ok _

theorem notExternal_regOperands (r1 r2 : RegField) (s : State) : NotExternal (regOperands r1 r2 s) :=
  (notExternal_readReg r1 s).bind fun _ => (notExternal_readReg r2 s).bind fun _ => .ok _

theorem notExternal_writeResult (r1 : RegField) (res : Word) (n : Nat) (s : State) :
    NotExternal (writeResult r1 res n s) := (notExternal_writeReg r1 res s).bind fun _ => .ok _

theorem notExternal_outputLength (lw : Word) : NotExternal (outputLength lw) := by
  intro c h
  rw [(outputLength_eq_error.mp h).2]
  simp

theorem notExternal_readBlock (a : Word) (n : Nat) (s : State) : NotExternal (readBlock a n s) := by
  intro c h
  obtain ⟨i, -, -, -, rfl⟩ := readBlock_eq_error.mp h
  simp

/-- The fetch raises only faults of the unit. -/
theorem notExternal_fetch (s : State) : NotExternal (fetch s) := by
  intro c h
  rcases fetch_eq_error.mp h with ⟨-, rfl⟩ | ⟨w0, e, -, -, rfl⟩ | ⟨w0, op, -, -, h⟩
  · simp
  · cases e <;> simp [rejectCause]
  · exact notExternal_readBlock _ _ s c h

/-! ### The effects of an instruction -/

/-- The next states an instruction can answer from state `s`: a fault, or the one effect of its rule under the
conditions of that rule. -/
inductive Effect (s : State) : Instr → State → Prop where
  | fault (i : Instr) (c : FaultCause) (hc : c ≠ .invalidExternalInput) : Effect s i (faultedAs c s)
  | ldMem {r1 adr x} (j : Fin 8) (k v : Word) (hj : r1.toNat = j.val) (hk : IndexHolds s x k)
      (hv : s.mem.read (adr + k) = some v) :
      Effect s (.ldMem r1 adr x) { s with pc := s.pc + 2, gr := s.gr.set j ⟨v, true⟩, flags := wordFlags v }
  | st {r1 adr x} (k v : Word) (hk : IndexHolds s x k) (hv : RegHolds s r1 v) :
      Effect s (.st r1 adr x) { s with pc := s.pc + 2, mem := s.mem.write (adr + k) v }
  | lad {r1 adr x} (j : Fin 8) (k : Word) (hj : r1.toNat = j.val) (hk : IndexHolds s x k) :
      Effect s (.lad r1 adr x) { s with pc := s.pc + 2, gr := s.gr.set j ⟨adr + k, true⟩ }
  | ldReg {r1 r2} (j : Fin 8) (v : Word) (hj : r1.toNat = j.val) (hv : RegHolds s r2 v) :
      Effect s (.ldReg r1 r2) { s with pc := s.pc + 1, gr := s.gr.set j ⟨v, true⟩, flags := wordFlags v }
  | adda {r1 adr x} (j : Fin 8) (k a b : Word) (hj : r1.toNat = j.val) (hk : IndexHolds s x k)
      (ha : RegHolds s r1 a) (hb : s.mem.read (adr + k) = some b) :
      Effect s (.adda r1 adr x)
        { s with pc := s.pc + 2, gr := s.gr.set j ⟨a + b, true⟩, flags := wordFlags (a + b) }
  | andMem {r1 adr x} (j : Fin 8) (k a b : Word) (hj : r1.toNat = j.val) (hk : IndexHolds s x k)
      (ha : RegHolds s r1 a) (hb : s.mem.read (adr + k) = some b) :
      Effect s (.andMem r1 adr x)
        { s with pc := s.pc + 2, gr := s.gr.set j ⟨a &&& b, true⟩, flags := wordFlags (a &&& b) }
  | suba {r1 r2} (j : Fin 8) (a b : Word) (hj : r1.toNat = j.val) (ha : RegHolds s r1 a) (hb : RegHolds s r2 b) :
      Effect s (.suba r1 r2)
        { s with pc := s.pc + 1, gr := s.gr.set j ⟨a - b, true⟩, flags := wordFlags (a - b) }
  | andReg {r1 r2} (j : Fin 8) (a b : Word) (hj : r1.toNat = j.val) (ha : RegHolds s r1 a) (hb : RegHolds s r2 b) :
      Effect s (.andReg r1 r2)
        { s with pc := s.pc + 1, gr := s.gr.set j ⟨a &&& b, true⟩, flags := wordFlags (a &&& b) }
  | cpaMem {r1 adr x} (k a b : Word) (hk : IndexHolds s x k) (ha : RegHolds s r1 a)
      (hb : s.mem.read (adr + k) = some b) :
      Effect s (.cpaMem r1 adr x) { s with pc := s.pc + 2, flags := orderFlags a b }
  | cpaReg {r1 r2} (a b : Word) (ha : RegHolds s r1 a) (hb : RegHolds s r2 b) :
      Effect s (.cpaReg r1 r2) { s with pc := s.pc + 1, flags := orderFlags a b }
  | jmi {adr x} (k : Word) (n : Bool) (hk : IndexHolds s x k) (hn : s.flags.sf = ⟨n, true⟩) :
      Effect s (.jmi adr x) { s with pc := if n then adr + k else s.pc + 2 }
  | jze {adr x} (k : Word) (z : Bool) (hk : IndexHolds s x k) (hz : s.flags.zf = ⟨z, true⟩) :
      Effect s (.jze adr x) { s with pc := if z then adr + k else s.pc + 2 }
  | jump {adr x} (k : Word) (hk : IndexHolds s x k) : Effect s (.jump adr x) { s with pc := adr + k }
  | jpl {adr x} (k : Word) (n z : Bool) (hk : IndexHolds s x k) (hn : s.flags.sf = ⟨n, true⟩)
      (hz : s.flags.zf = ⟨z, true⟩) :
      Effect s (.jpl adr x) { s with pc := if !n && !z then adr + k else s.pc + 2 }
  | ret : Effect s .ret { s with status := .halted }
  | svc {dp lp} (lw : Word) (ws : List Word) (hl : s.mem.read lp = some lw) (hlt : lw.toNat < 0x8000)
      (hlen : ws.length = lw.toNat) (hws : ∀ i, i < lw.toNat → s.mem.read (dp + BitVec.ofNat 16 i) = ws[i]?) :
      Effect s (.svc dp lp) { s with pc := s.pc + 3, outputs := s.outputs ++ [ws] }

/-- A jump's end is the state with PC at the target or past the jump. -/
theorem jumpIf_eq (b : Bool) (t : Word) (s : State) : jumpIf b t s = { s with pc := if b then t else s.pc + 2 } := by
  cases b <;> rfl

/-- Whatever an instruction answers is one of its effects. -/
theorem exec_effect {i : Instr} {s t : State} (h : exec i s = .next t) : Effect s i t := by
  cases i with
  | ldMem r1 adr x =>
    rcases commit_eq_next.mp h with h | ⟨c, hc, rfl⟩
    · simp only [bind_eq_ok, effectiveAddress_eq_ok, memRead_eq_ok, writeReg_eq_ok, Except.ok.injEq] at h
      obtain ⟨_, ⟨k, hk, rfl⟩, v, hv, _, ⟨j, hj, rfl⟩, rfl⟩ := h
      have e := Effect.ldMem j k v hj hk hv
      rw [← flagsOf_sext16] at e
      exact e
    · exact .fault _ c
        (((notExternal_effectiveAddress _ _ _).bind fun _ =>
          (notExternal_memRead _ _).bind fun _ =>
          (notExternal_writeReg _ _ _).bind fun _ => .ok _ : NotExternal _) c hc)
  | st r1 adr x =>
    rcases commit_eq_next.mp h with h | ⟨c, hc, rfl⟩
    · simp only [bind_eq_ok, effectiveAddress_eq_ok, readReg_eq_ok, Except.ok.injEq] at h
      obtain ⟨_, ⟨k, hk, rfl⟩, v, hv, rfl⟩ := h
      exact Effect.st k v hk hv
    · exact .fault _ c
        (((notExternal_effectiveAddress _ _ _).bind fun _ =>
          (notExternal_readReg _ _).bind fun _ => .ok _ : NotExternal _) c hc)
  | lad r1 adr x =>
    rcases commit_eq_next.mp h with h | ⟨c, hc, rfl⟩
    · simp only [bind_eq_ok, effectiveAddress_eq_ok, writeReg_eq_ok, Except.ok.injEq] at h
      obtain ⟨_, ⟨k, hk, rfl⟩, _, ⟨j, hj, rfl⟩, rfl⟩ := h
      exact Effect.lad j k hj hk
    · exact .fault _ c
        (((notExternal_effectiveAddress _ _ _).bind fun _ =>
          (notExternal_writeReg _ _ _).bind fun _ => .ok _ : NotExternal _) c hc)
  | ldReg r1 r2 =>
    rcases commit_eq_next.mp h with h | ⟨c, hc, rfl⟩
    · simp only [bind_eq_ok, readReg_eq_ok, writeReg_eq_ok, Except.ok.injEq] at h
      obtain ⟨v, hv, _, ⟨j, hj, rfl⟩, rfl⟩ := h
      have e := Effect.ldReg j v hj hv
      rw [← flagsOf_sext16] at e
      exact e
    · exact .fault _ c
        (((notExternal_readReg _ _).bind fun _ =>
          (notExternal_writeReg _ _ _).bind fun _ => .ok _ : NotExternal _) c hc)
  | adda r1 adr x =>
    rcases commit_eq_next.mp h with h | ⟨c, hc, rfl⟩
    · obtain ⟨⟨a, b⟩, hp, hw⟩ := bind_eq_ok.mp h
      obtain ⟨k, hk, ha, hb⟩ := memOperands_eq_ok.mp hp
      obtain ⟨j, hj, rfl⟩ := writeResult_eq_ok.mp hw
      simp only [addWords, trunc16_toNat_add]
      exact Effect.adda j k a b hj hk ha hb
    · exact .fault _ c
        (((notExternal_memOperands _ _ _ _).bind fun _ => notExternal_writeResult _ _ _ _ : NotExternal _) c hc)
  | andMem r1 adr x =>
    rcases commit_eq_next.mp h with h | ⟨c, hc, rfl⟩
    · obtain ⟨⟨a, b⟩, hp, hw⟩ := bind_eq_ok.mp h
      obtain ⟨k, hk, ha, hb⟩ := memOperands_eq_ok.mp hp
      obtain ⟨j, hj, rfl⟩ := writeResult_eq_ok.mp hw
      exact Effect.andMem j k a b hj hk ha hb
    · exact .fault _ c
        (((notExternal_memOperands _ _ _ _).bind fun _ => notExternal_writeResult _ _ _ _ : NotExternal _) c hc)
  | suba r1 r2 =>
    rcases commit_eq_next.mp h with h | ⟨c, hc, rfl⟩
    · obtain ⟨⟨a, b⟩, hp, hw⟩ := bind_eq_ok.mp h
      obtain ⟨ha, hb⟩ := regOperands_eq_ok.mp hp
      obtain ⟨j, hj, rfl⟩ := writeResult_eq_ok.mp hw
      simp only [subWords, trunc16_toNat_sub]
      exact Effect.suba j a b hj ha hb
    · exact .fault _ c
        (((notExternal_regOperands _ _ _).bind fun _ => notExternal_writeResult _ _ _ _ : NotExternal _) c hc)
  | andReg r1 r2 =>
    rcases commit_eq_next.mp h with h | ⟨c, hc, rfl⟩
    · obtain ⟨⟨a, b⟩, hp, hw⟩ := bind_eq_ok.mp h
      obtain ⟨ha, hb⟩ := regOperands_eq_ok.mp hp
      obtain ⟨j, hj, rfl⟩ := writeResult_eq_ok.mp hw
      exact Effect.andReg j a b hj ha hb
    · exact .fault _ c
        (((notExternal_regOperands _ _ _).bind fun _ => notExternal_writeResult _ _ _ _ : NotExternal _) c hc)
  | cpaMem r1 adr x =>
    rcases commit_eq_next.mp h with h | ⟨c, hc, rfl⟩
    · obtain ⟨⟨a, b⟩, hp, hw⟩ := bind_eq_ok.mp h
      obtain ⟨k, hk, ha, hb⟩ := memOperands_eq_ok.mp hp
      cases hw
      have e := Effect.cpaMem k a b hk ha hb
      rw [← flagsOf_compareWords] at e
      exact e
    · exact .fault _ c (((notExternal_memOperands _ _ _ _).bind fun _ => .ok _ : NotExternal _) c hc)
  | cpaReg r1 r2 =>
    rcases commit_eq_next.mp h with h | ⟨c, hc, rfl⟩
    · obtain ⟨⟨a, b⟩, hp, hw⟩ := bind_eq_ok.mp h
      obtain ⟨ha, hb⟩ := regOperands_eq_ok.mp hp
      cases hw
      have e := Effect.cpaReg a b ha hb
      rw [← flagsOf_compareWords] at e
      exact e
    · exact .fault _ c (((notExternal_regOperands _ _ _).bind fun _ => .ok _ : NotExternal _) c hc)
  | jmi adr x =>
    rcases commit_eq_next.mp h with h | ⟨c, hc, rfl⟩
    · simp only [bind_eq_ok, effectiveAddress_eq_ok, readSf_eq_ok, Except.ok.injEq] at h
      obtain ⟨_, ⟨k, hk, rfl⟩, n, hn, rfl⟩ := h
      rw [jumpIf_eq]
      exact Effect.jmi k n hk hn
    · exact .fault _ c
        (((notExternal_effectiveAddress _ _ _).bind fun _ =>
          (notExternal_readSf _).bind fun _ => .ok _ : NotExternal _) c hc)
  | jze adr x =>
    rcases commit_eq_next.mp h with h | ⟨c, hc, rfl⟩
    · simp only [bind_eq_ok, effectiveAddress_eq_ok, readZf_eq_ok, Except.ok.injEq] at h
      obtain ⟨_, ⟨k, hk, rfl⟩, z, hz, rfl⟩ := h
      rw [jumpIf_eq]
      exact Effect.jze k z hk hz
    · exact .fault _ c
        (((notExternal_effectiveAddress _ _ _).bind fun _ =>
          (notExternal_readZf _).bind fun _ => .ok _ : NotExternal _) c hc)
  | jump adr x =>
    rcases commit_eq_next.mp h with h | ⟨c, hc, rfl⟩
    · simp only [bind_eq_ok, effectiveAddress_eq_ok, Except.ok.injEq] at h
      obtain ⟨_, ⟨k, hk, rfl⟩, rfl⟩ := h
      exact Effect.jump k hk
    · exact .fault _ c (((notExternal_effectiveAddress _ _ _).bind fun _ => .ok _ : NotExternal _) c hc)
  | jpl adr x =>
    rcases commit_eq_next.mp h with h | ⟨c, hc, rfl⟩
    · simp only [bind_eq_ok, effectiveAddress_eq_ok, readSf_eq_ok, readZf_eq_ok, Except.ok.injEq] at h
      obtain ⟨_, ⟨k, hk, rfl⟩, n, hn, z, hz, rfl⟩ := h
      rw [jumpIf_eq]
      exact Effect.jpl k n z hk hn hz
    · exact .fault _ c
        (((notExternal_effectiveAddress _ _ _).bind fun _ =>
          (notExternal_readSf _).bind fun _ =>
          (notExternal_readZf _).bind fun _ => .ok _ : NotExternal _) c hc)
  | ret =>
    cases h
    exact .ret
  | svc dp lp =>
    rcases commit_eq_next.mp h with h | ⟨c, hc, rfl⟩
    · simp only [bind_eq_ok, memRead_eq_ok, outputLength_eq_ok, readBlock_eq_ok, Except.ok.injEq] at h
      obtain ⟨lw, hl, _, ⟨hlt, rfl⟩, ws, ⟨hlen, hws⟩, rfl⟩ := h
      exact Effect.svc lw ws hl hlt hlen hws
    · exact .fault _ c
        (((notExternal_memRead _ _).bind fun _ => (notExternal_outputLength _).bind fun _ =>
        (notExternal_readBlock _ _ _).bind fun _ => .ok _ : NotExternal _) c hc)

/-- Whatever a step answers: nothing changed when stopped; else an effect of the fetched instruction, or the fault of
the fetch. -/
theorem step_effect {s t : State} (h : step s = .next t) :
    (s.status ≠ .running ∧ t = s) ∨ (s.status = .running ∧ ∃ i, fetch s = .ok i ∧ Effect s i t) ∨
      (s.status = .running ∧ ∃ c, fetch s = .error c ∧ t = faultedAs c s) := by
  rcases step_cases s with ⟨hs, h'⟩ | ⟨hs, i, hf, h'⟩ | ⟨hs, c, hf, h'⟩
  · rw [h'] at h
    cases h
    exact .inl ⟨hs, rfl⟩
  · rw [h'] at h
    exact .inr (.inl ⟨hs, i, hf, exec_effect h⟩)
  · rw [h'] at h
    cases h
    exact .inr (.inr ⟨hs, c, hf, rfl⟩)

end Sys2Proof.Machine
end

