-- ==== Sys2Proof/Laws/PerInstr.lean ====
section
/-!
SUPPORT. Statements made per instruction, one lemma per constructor.
-/

/-- The encoding has as many words as the instruction's length says, and its first word alone gives the decoder that
length (R81, R91). -/
def Sys2Proof.Laws.EncodedLength.Statement (i : Sys2Proof.Instr) : Prop :=
  (Sys2Proof.encode i).length = i.words ∧
    ∃ op, Sys2Proof.decodeFirst ((Sys2Proof.encode i).getD 0 0) = .ok op ∧ op.words = i.words

namespace Sys2Proof.Laws.EncodedLength

theorem ldMem (r1 : RegField) (adr : Word) (x : RegField) : Statement (.ldMem r1 adr x) :=
  ⟨rfl, .ldMem, decodeFirst_packWord (by decide) _ _, rfl⟩

theorem st (r1 : RegField) (adr : Word) (x : RegField) : Statement (.st r1 adr x) :=
  ⟨rfl, .st, decodeFirst_packWord (by decide) _ _, rfl⟩

theorem lad (r1 : RegField) (adr : Word) (x : RegField) : Statement (.lad r1 adr x) :=
  ⟨rfl, .lad, decodeFirst_packWord (by decide) _ _, rfl⟩

theorem ldReg (r1 : RegField) (r2 : RegField) : Statement (.ldReg r1 r2) :=
  ⟨rfl, .ldReg, decodeFirst_packWord (by decide) _ _, rfl⟩

theorem adda (r1 : RegField) (adr : Word) (x : RegField) : Statement (.adda r1 adr x) :=
  ⟨rfl, .adda, decodeFirst_packWord (by decide) _ _, rfl⟩

theorem suba (r1 : RegField) (r2 : RegField) : Statement (.suba r1 r2) :=
  ⟨rfl, .suba, decodeFirst_packWord (by decide) _ _, rfl⟩

theorem andMem (r1 : RegField) (adr : Word) (x : RegField) : Statement (.andMem r1 adr x) :=
  ⟨rfl, .andMem, decodeFirst_packWord (by decide) _ _, rfl⟩

theorem andReg (r1 : RegField) (r2 : RegField) : Statement (.andReg r1 r2) :=
  ⟨rfl, .andReg, decodeFirst_packWord (by decide) _ _, rfl⟩

theorem cpaMem (r1 : RegField) (adr : Word) (x : RegField) : Statement (.cpaMem r1 adr x) :=
  ⟨rfl, .cpaMem, decodeFirst_packWord (by decide) _ _, rfl⟩

theorem cpaReg (r1 : RegField) (r2 : RegField) : Statement (.cpaReg r1 r2) :=
  ⟨rfl, .cpaReg, decodeFirst_packWord (by decide) _ _, rfl⟩

theorem jmi (adr : Word) (x : RegField) : Statement (.jmi adr x) :=
  ⟨rfl, .jmi, decodeFirst_packWord (by decide) _ _, rfl⟩

theorem jze (adr : Word) (x : RegField) : Statement (.jze adr x) :=
  ⟨rfl, .jze, decodeFirst_packWord (by decide) _ _, rfl⟩

theorem jump (adr : Word) (x : RegField) : Statement (.jump adr x) :=
  ⟨rfl, .jump, decodeFirst_packWord (by decide) _ _, rfl⟩

theorem jpl (adr : Word) (x : RegField) : Statement (.jpl adr x) :=
  ⟨rfl, .jpl, decodeFirst_packWord (by decide) _ _, rfl⟩

theorem ret : Statement .ret :=
  ⟨rfl, .ret, decodeFirst_packWord (by decide) _ _, rfl⟩

theorem svc (dp : Word) (lp : Word) : Statement (.svc dp lp) :=
  ⟨rfl, .svc, decodeFirst_svc, rfl⟩

end Sys2Proof.Laws.EncodedLength
end

