-- ==== Sys2Proof/Tests/Slice0.lean ====
section
/-!
SUPPORT. Tests, each with its source in spec/ (a vector of 95_test_vectors.md unless another is named), and for every
statement with hypotheses a witness: concrete states and operands that meet them, one for each clause.
-/

namespace Sys2Proof.Tests

open Sys2Proof.Machine

/-! ### Well-formedness: an ill-formed term for each check -/

theorem test_wf_accepts : (Instr.ldMem 7 0x0040 7).wellFormed = true ∧ (Instr.jump 0 0).wellFormed = true ∧
    Instr.ret.wellFormed = true ∧ (Instr.svc 0xFFFF 0).wellFormed = true := by decide

theorem test_wf_ldMem : (Instr.ldMem 8 0 0).wellFormed = false ∧ (Instr.ldMem 0 0 8).wellFormed = false := by decide
theorem test_wf_st : (Instr.st 15 0 0).wellFormed = false ∧ (Instr.st 0 0 15).wellFormed = false := by decide
theorem test_wf_lad : (Instr.lad 8 0 0).wellFormed = false ∧ (Instr.lad 0 0 8).wellFormed = false := by decide
theorem test_wf_ldReg : (Instr.ldReg 8 0).wellFormed = false ∧ (Instr.ldReg 0 8).wellFormed = false := by decide
theorem test_wf_adda : (Instr.adda 8 0 0).wellFormed = false ∧ (Instr.adda 0 0 8).wellFormed = false := by decide
theorem test_wf_suba : (Instr.suba 9 0).wellFormed = false ∧ (Instr.suba 0 9).wellFormed = false := by decide
theorem test_wf_andMem : (Instr.andMem 8 0 0).wellFormed = false ∧ (Instr.andMem 0 0 8).wellFormed = false := by decide
theorem test_wf_andReg : (Instr.andReg 10 0).wellFormed = false ∧ (Instr.andReg 0 10).wellFormed = false := by decide
theorem test_wf_cpaMem : (Instr.cpaMem 8 0 0).wellFormed = false ∧ (Instr.cpaMem 0 0 8).wellFormed = false := by decide
theorem test_wf_cpaReg : (Instr.cpaReg 8 0).wellFormed = false ∧ (Instr.cpaReg 0 8).wellFormed = false := by decide
theorem test_wf_jmi : (Instr.jmi 0 8).wellFormed = false := by decide
theorem test_wf_jze : (Instr.jze 0 9).wellFormed = false := by decide
theorem test_wf_jump : (Instr.jump 0 8).wellFormed = false := by decide
theorem test_wf_jpl : (Instr.jpl 0 15).wellFormed = false := by decide

/-! ### Decoding: words written bit by bit from R80 to R85, opcode byte, field, field, then the second word -/

theorem test_decode_ldMem : (decode [0b0001_0000_0001_0010, 0x0040]).toOption = some (.ldMem 1 0x0040 2, []) := by decide
theorem test_decode_st : (decode [0b0001_0001_0111_0001, 0x0200]).toOption = some (.st 7 0x0200 1, []) := by decide
theorem test_decode_lad : (decode [0b0001_0010_0010_0000, 0xFFFF]).toOption = some (.lad 2 0xFFFF 0, []) := by decide
theorem test_decode_ldReg : (decode [0b0001_0100_1000_0000, 7]).toOption = some (.ldReg 8 0, [7]) := by decide
theorem test_decode_adda : (decode [0b0010_0000_0001_0101, 0x0010]).toOption = some (.adda 1 0x0010 5, []) := by decide
theorem test_decode_suba : (decode [0b0010_0101_0010_0011]).toOption = some (.suba 2 3, []) := by decide
theorem test_decode_andMem : (decode [0b0011_0000_0001_0110, 0x0041]).toOption = some (.andMem 1 0x0041 6, []) := by decide
theorem test_decode_andReg : (decode [0b0011_0100_0110_0001]).toOption = some (.andReg 6 1, []) := by decide
theorem test_decode_cpaMem : (decode [0b0100_0000_0011_0100, 0x0042]).toOption = some (.cpaMem 3 0x0042 4, []) := by decide
theorem test_decode_cpaReg : (decode [0b0100_0100_1010_0010]).toOption = some (.cpaReg 10 2, []) := by decide
theorem test_decode_jmi : (decode [0b0110_0001_0000_0010, 0x000D]).toOption = some (.jmi 0x000D 2, []) := by decide
theorem test_decode_jze : (decode [0b0110_0011_1111_0001, 0x0020]).toOption = some (.jze 0x0020 1, []) := by decide
theorem test_decode_jump : (decode [0b0110_0100_1111_0011, 0x0010]).toOption = some (.jump 0x0010 3, []) := by decide
theorem test_decode_jpl : (decode [0b0110_0101_0000_1001, 0x0030]).toOption = some (.jpl 0x0030 9, []) := by decide
theorem test_decode_ret : (decode [0b1000_0001_1111_1111]).toOption = some (.ret, []) := by decide
theorem test_decode_svc : (decode [0b1111_1111_0000_0010, 4, 7, 9]).toOption = some (.svc 4 7, [9]) := by decide

/-- R86 and the vectors 2192, F000 and 1300. -/
theorem test_decode_unlisted : decode [0x2192] = .error (.unimplementedOpcode 0x21) ∧
    decode [0xF000] = .error (.unimplementedOpcode 0xF0) ∧ decode [0x1300] = .error (.unimplementedOpcode 0x13) ∧
    decode [0x0000] = .error (.unimplementedOpcode 0x00) := ⟨rfl, rfl, rfl, rfl⟩

/-- R88: FF00, FF12 and a type other than 2 are no instruction, with or without words after them. -/
theorem test_decode_other_svc : decode [0xFF00, 0x0010] = .error (.unsupportedSvc 0xFF00) ∧
    decode [0xFF12] = .error (.unsupportedSvc 0xFF12) ∧ decode [0xFF03, 0, 0] = .error (.unsupportedSvc 0xFF03) :=
  ⟨rfl, rfl, rfl⟩

/-- R81: the words an instruction lacks. -/
theorem test_decode_missing : decode [] = .error (.missingWord 0) ∧ decode [0x1010] = .error (.missingWord 1) ∧
    decode [0xFF02, 4] = .error (.missingWord 2) := ⟨rfl, rfl, rfl⟩

/-- R85: no two rows of the map share an opcode byte. -/
theorem test_opcode_bytes_distinct : Opcode.all.Pairwise (fun a b => a.byte ≠ b.byte) := by decide

/-- R103: the packings its text gives. -/
theorem test_encode : encode (.suba 1 2) = [0x2512] ∧ encode (.lad 1 5 0) = [0x1210, 5] ∧
    encode (.jump 0x0010 3) = [0x6403, 0x0010] ∧ encode .ret = [0x8100] ∧ encode (.svc 4 7) = [0xFF02, 4, 7] := by decide

/-- The opcode table's numbering: the first word is the low 16 bits. -/
theorem test_table_word : decodeTableWord 32 0x0005_1210 = some (.lad 1 5 0) ∧
    decodeTableWord 16 0x2512 = some (.suba 1 2) ∧ decodeTableWord 48 0x0007_0004_FF02 = some (.svc 4 7) ∧
    decodeTableWord 16 0x1210 = some (.lad 1 0 0) ∧ decodeTableWord 16 0x0000 = none := by decide

/-! ### Small states -/

/-- A running unit at `pc` with these memory words and registers written. -/
def at_ (pc : Word) (image : List (Word × Word)) (regs : List (Fin 8 × Word)) : State :=
  regs.foldl (fun s r => s.setReg r.1 r.2) (hostLoad image (State.resetAt pc))

/-- The flags SF and ZF written, OF 0 (R26). -/
def withFlags (sf zf : Bool) (s : State) : State := s.putFlags ⟨⟨false, true⟩, ⟨sf, true⟩, ⟨zf, true⟩⟩

/-- The state an outcome holds; the reset state where there is none. -/
def stateOf : Host.Outcome State Fault Refusal → State
  | .next t => t
  | .fault _ => State.reset
  | .refused _ => State.reset

/-- The state one step leads to. -/
def after (s : State) : State := stateOf (step s)

/-- The flags as the vectors write them: none for "unw". -/
def seenFlags (s : State) : Option Bool × Option Bool × Option Bool :=
  (s.flags.of.seen, s.flags.sf.seen, s.flags.zf.seen)

/-- The value of a register: none for "unw". -/
def seenReg (i : Fin 8) (s : State) : Option Word := s.gr[i].seen

/-! ### One step on the vectors of L2 -/

/-- L2.1 row 4. -/
theorem test_ldMem_indexed : let t := after (at_ 0 [(0, 0x1012), (1, 0x0102), (0x0105, 0x8000)] [(2, 3)])
    (seenReg 1 t, seenFlags t, t.pc) = (some 0x8000, (some false, some true, some false), 2) := by decide

/-- L2.1 row 23: the data read precedes the r1 check. -/
theorem test_ldMem_fault_order : (after (at_ 0 [(0, 0x1090), (1, 0x0100)] [])).status =
    .faulted ⟨.uninitializedMemory 0x0100, 0, some 0x1090⟩ := by decide

/-- L2.1 rows 8 and 10. -/
theorem test_st : let t := after (withFlags true false (at_ 0 [(0, 0x1110), (1, 0x0200)] [(1, 0x1234)]))
    (t.mem.read 0x0200, seenFlags t, t.pc) = (some 0x1234, (some false, some true, some false), 2) := by decide

/-- L2.5 row 8: a store over the instruction's own first word. -/
theorem test_st_own_word : let t := after (at_ 0 [(0, 0x1110), (1, 0x0000)] [(1, 0x8100)])
    (t.mem.read 0, t.pc, t.status) = (some 0x8100, 2, .running) := by decide

/-- L2.1 row 13. -/
theorem test_lad_wraps : let t := after (withFlags false true (at_ 0 [(0, 0x1211), (1, 0x0001)] [(1, 0xFFFF)]))
    (seenReg 1 t, seenFlags t) = (some 0, (some false, some false, some true)) := by decide

/-- L2.5 row 5: the operand word and the PC wrap. -/
theorem test_lad_top_of_memory : let t := after (at_ 0xFFFF [(0xFFFF, 0x1210), (0, 9)] [])
    (seenReg 1 t, seenFlags t, t.pc) = (some 9, (none, none, none), 1) := by decide

/-- L2.1 row 17. -/
theorem test_ldReg : let t := after (at_ 0 [(0, 0x1412)] [(2, 0xFFFE)])
    (seenReg 1 t, seenFlags t, t.pc) = (some 0xFFFE, (some false, some true, some false), 1) := by decide

/-- L2.1 row 22: f2 is read before f1 is checked. -/
theorem test_ldReg_fault_order : (after (at_ 0 [(0, 0x1480)] [])).status =
    .faulted ⟨.unwrittenRegister (.gr 0), 0, some 0x1480⟩ := by decide

/-- L2.2 row 2: overflow is not flagged. -/
theorem test_adda_overflow : let t := after (at_ 0 [(0, 0x2010), (1, 0x0040), (0x0040, 1)] [(1, 0x7FFF)])
    (seenReg 1 t, seenFlags t, t.pc) = (some 0x8000, (some false, some true, some false), 2) := by decide

/-- L2.2 row 6: the index register is also the destination. -/
theorem test_adda_same_register : seenReg 1 (after (at_ 0 [(0, 0x2011), (1, 0x0040), (0x0042, 5)] [(1, 2)])) =
    some 7 := by decide

/-- L2.2 row 9. -/
theorem test_suba : let t := after (at_ 0 [(0, 0x2512)] [(1, 3), (2, 5)])
    (seenReg 1 t, seenFlags t, t.pc) = (some 0xFFFE, (some false, some true, some false), 1) := by decide

/-- L2.2 row 11. -/
theorem test_suba_most_negative : let t := after (at_ 0 [(0, 0x2512)] [(1, 0x8000), (2, 1)])
    (seenReg 1 t, seenFlags t) = (some 0x7FFF, (some false, some false, some false)) := by decide

/-- L2.2 row 16. -/
theorem test_andMem_zero : let t := after (at_ 0 [(0, 0x3010), (1, 0x0041), (0x0041, 0x0F0F)] [(1, 0xF0F0)])
    (seenReg 1 t, seenFlags t) = (some 0, (some false, some false, some true)) := by decide

/-- L2.2 row 18. -/
theorem test_andReg : let t := after (at_ 0 [(0, 0x3412)] [(1, 0xFF00), (2, 0x8F0F)])
    (seenReg 1 t, seenFlags t, t.pc) = (some 0x8F00, (some false, some true, some false), 1) := by decide

/-- L2.2 row 22: the exact difference, 65535, is positive. -/
theorem test_cpaMem_signed : let t := after (at_ 0 [(0, 0x4010), (1, 0x0042), (0x0042, 0x8000)] [(1, 0x7FFF)])
    (seenReg 1 t, seenFlags t, t.pc) = (some 0x7FFF, (some false, some false, some false), 2) := by decide

/-- L2.2 row 25. -/
theorem test_cpaReg_signed : let t := after (at_ 0 [(0, 0x4412)] [(1, 0x8000), (2, 0x7FFF)])
    (seenFlags t, t.pc) = ((some false, some true, some false), 1) := by decide

/-- L2.2 row 27: f1 is checked before f2. -/
theorem test_cpaReg_fault_order : (after (at_ 0 [(0, 0x44A2)] [(2, 1)])).status =
    .faulted ⟨.undefinedRegister 10, 0, some 0x44A2⟩ := by decide

/-- L2.3 row 1. -/
theorem test_jmi_taken : (after (withFlags true false (at_ 0 [(0, 0x6100), (1, 0x0020)] []))).pc = 0x0020 := by decide

/-- L2.3 row 3. -/
theorem test_jmi_unwritten : (after (at_ 0 [(0, 0x6100), (1, 0x0020)] [])).status =
    .faulted ⟨.unwrittenRegister .sf, 0, some 0x6100⟩ := by decide

/-- L2.3 row 4. -/
theorem test_jze_taken : (after (withFlags false true (at_ 0 [(0, 0x6300), (1, 0x0020)] []))).pc = 0x0020 := by decide

/-- L2.3 row 5. -/
theorem test_jze_not_taken : (after (withFlags false false (at_ 8 [(8, 0x6300), (9, 0x0020)] []))).pc = 0x000A := by decide

/-- L2.3 row 9: bits 7..4 are ignored. -/
theorem test_jump_ignored_bits : (after (at_ 0 [(0, 0x64F3), (1, 0x0010)] [(3, 4)])).pc = 0x0014 := by decide

/-- L2.3 row 11. -/
theorem test_jump_wraps : (after (at_ 0 [(0, 0x6403), (1, 0xFFFF)] [(3, 3)])).pc = 0x0002 := by decide

/-- L2.3 row 14. -/
theorem test_jpl_minus : (after (withFlags true false (at_ 8 [(8, 0x6500), (9, 0x0030)] []))).pc = 0x000A := by decide

/-- L2.3 row 15: the target is computed even if the jump is not taken. -/
theorem test_jpl_index_unwritten : (after (withFlags false false (at_ 8 [(8, 0x6503), (9, 0x0030)] []))).status =
    .faulted ⟨.unwrittenRegister (.gr 3), 8, some 0x6503⟩ := by decide

/-- L2.3 row 18. -/
theorem test_ret : let t := after (at_ 5 [(5, 0x81FF)] [])
    (t.status, t.pc, seenFlags t, t.outputs) = (.halted, 5, (none, none, none), []) := by decide

/-- L2.4 row 7: the data words wrap and are output as they stand. -/
theorem test_svc_wraps : let t := after (at_ 0 [(0, 0xFF02), (1, 0xFFFF), (2, 0x0020), (0x0020, 2), (0xFFFF, 7)] [])
    (t.outputs, t.pc) = ([[7, 0xFF02]], 3) := by decide

/-- L2.4 row 4: no output when a data word holds no value. -/
theorem test_svc_fault : let t := after (at_ 0 [(0, 0xFF02), (1, 0x0010), (2, 0x0020), (0x0020, 2), (0x0010, 0x0041)] [])
    (t.status, t.outputs, t.pc) = (.faulted ⟨.uninitializedMemory 0x0011, 0, some 0xFF02⟩, [], 0) := by decide

/-- L2.5 row 1. -/
theorem test_fetch_unwritten : (after State.reset).status = .faulted ⟨.uninitializedMemory 0, 0, none⟩ := by decide

/-- L2.5 row 4. -/
theorem test_operand_fetch_unwritten : (after (at_ 0 [(0, 0x1010)] [])).status =
    .faulted ⟨.uninitializedMemory 1, 0, some 0x1010⟩ := by decide

/-- The host's probe: the placed instruction is the next to run. -/
theorem test_probe : let t := after (State.reset.withFetchWord 32 0x0005_1210)
    (seenReg 1 t, t.pc, t.status) = (some 5, 2, .running) := by decide

/-- R46: the dump is in ascending order, whatever the order of the load. -/
theorem test_dump_order : (observe (at_ 0 [(0xFFFF, 7), (0, 1), (0x0040, 2), (0, 3)] [])).dump =
    [(0, 3), (0x0040, 2), (0xFFFF, 7)] := by decide

/-! ### The assembler -/

/-- A source line without a comment. -/
def line (label mnemonic operands : String) : Assembler.SourceLine :=
  ⟨label.toList, mnemonic.toList, operands.toList, []⟩

/-- The image or the error of a program text. -/
def image (lines : List Assembler.SourceLine) : Except Assembler.CompileError (List (Nat × Word)) :=
  (Assembler.assemble lines).map (fun p => p.image)

/-- L1.3, program P2. -/
def programP2 : List Assembler.SourceLine :=
  [line "" "LD" "GR0,=10", line "" "ST" "GR0,RESULT", line "" "RET" "", line "RESULT" "DS" "1"]

theorem test_assemble_p2 : (image programP2).toOption =
    some [(0, 0x1000), (1, 6), (2, 0x1100), (3, 5), (4, 0x8100), (5, 0), (6, 10)] := by decide

/-- L1.4, program P3. -/
theorem test_assemble_p3 : (image [line "" "OUT" "BUF,LEN", line "" "RET" "", line "BUF" "DC" "1,2,3", line "LEN" "DC" "3"]).toOption =
    some [(0, 0xFF02), (1, 4), (2, 7), (3, 0x8100), (4, 1), (5, 2), (6, 3), (7, 3)] := by decide

/-- L1.7: no deduplication. -/
theorem test_assemble_pool : (image [line "" "LD" "GR1,=5", line "" "LD" "GR2,=5", line "" "RET" ""]).toOption =
    some [(0, 0x1010), (1, 5), (2, 0x1020), (3, 6), (4, 0x8100), (5, 5), (6, 5)] := by decide

/-- L1.8. -/
theorem test_assemble_undefined_label : Assembler.assemble [line "" "JUMP" "NOWHERE", line "" "RET" ""] =
    .error (.undefinedLabel "NOWHERE".toList) := rfl

/-- L1.9: a label at address 0. -/
theorem test_assemble_label_zero : (image [line "TOP" "LAD" "GR1,1", line "" "JUMP" "TOP"]).toOption =
    some [(0, 0x1210), (1, 1), (2, 0x6400), (3, 0)] := by decide

/-- R102, R97, R96, R99: refusals. -/
theorem test_assemble_refuses : Assembler.assemble [line "" "LD" "GR1,X,GR0"] = .error (.malformedOperand "LD".toList) ∧
    Assembler.assemble [line "" "PUSH" "0"] = .error (.undefinedInstruction "PUSH".toList) ∧
    Assembler.assemble [line "" "ADDA" "GR1,GR2"] = .error (.noOpcode "ADDA".toList 1) ∧
    Assembler.assemble [line "" "DC" "1,2,3,4"] = .error (.tooManyOperands "DC".toList) ∧
    Assembler.assemble [line "" "LAD" "GR1,#12345"] = .error (.malformedSecondWord "#12345".toList) :=
  ⟨rfl, rfl, rfl, rfl, rfl⟩

/-- R108 with the range of R99: `DS 65536` is malformed although the image would fit, `DS 0` reserves nothing. -/
theorem test_ds_range : Assembler.assemble [line "" "DS" "65536"] = .error (.malformedOperand "DS".toList) ∧
    Assembler.assemble [line "" "DS" "-1"] = .error (.malformedOperand "DS".toList) ∧
    Assembler.decimalConstant "65535".toList = some 65535 ∧
    (image [line "" "DS" "0", line "" "RET" ""]).toOption = some [(0, 0x8100)] := ⟨rfl, rfl, rfl, by decide⟩

/-- R99: the bounds of a constant. -/
theorem test_constants : Assembler.parseConstant "-1".toList = some 0xFFFF ∧
    Assembler.parseConstant "65535".toList = some 0xFFFF ∧ Assembler.parseConstant "65536".toList = none ∧
    Assembler.parseConstant "-32768".toList = some 0x8000 ∧ Assembler.parseConstant "-32769".toList = none ∧
    Assembler.parseConstant "#1a2B".toList = some 0x1A2B ∧ Assembler.parseConstant "#".toList = none := by decide

/-! ### Witnesses: states and operands that meet the hypotheses of each statement, clause by clause -/

/-- GR0, GR1, GR2 and GR7 hold values, GR3 to GR6 do not; the word at PC is unwritten, 0x0050 too. -/
def sample : State :=
  withFlags false false
    (at_ 8 [(0, 9), (2, 0x8000), (0x0020, 2), (0x0021, 0x7FFF), (0x0022, 0), (0x0040, 7), (0xFFFF, 3)]
      [(0, 1), (1, 5), (2, 3), (7, 0xFFFF)])

/-- Nothing written but one word at PC; the words after it are unwritten. -/
def oneWord (w : Word) : State := at_ 0xFFFF [(0xFFFF, w)] []

/-- An SVC whose length pointer is unwritten. -/
def twoWords : State := at_ 0 [(0, 0xFF02), (1, 0x0010)] []

theorem sample_gr0 : RegHolds sample 0 1 := ⟨0, rfl, rfl⟩
theorem sample_gr1 : RegHolds sample 1 5 := ⟨1, rfl, rfl⟩
theorem sample_gr2 : RegHolds sample 2 3 := ⟨2, rfl, rfl⟩
theorem sample_gr7 : RegHolds sample 7 0xFFFF := ⟨7, rfl, rfl⟩
theorem sample_undefined : RegReadRaises sample 8 (.undefinedRegister 8) := .inl ⟨by decide, rfl⟩
theorem sample_unwritten : RegReadRaises sample 3 (.unwrittenRegister (.gr 3)) := .inr ⟨3, rfl, rfl, rfl⟩
theorem sample_no_index : IndexHolds sample 0 0 := .inl ⟨rfl, rfl⟩
theorem sample_index : IndexHolds sample 2 3 := .inr ⟨by decide, sample_gr2⟩
theorem sample_index_undefined : IndexRaises sample 8 (.undefinedRegister 8) := ⟨by decide, sample_undefined⟩
theorem sample_index_unwritten : IndexRaises sample 3 (.unwrittenRegister (.gr 3)) := ⟨by decide, sample_unwritten⟩

/-- The hypotheses of the clause "the second word is unwritten", for a first word. -/
abbrev LacksSecond (w : Word) : Prop :=
  (oneWord w).status = .running ∧ (oneWord w).mem.read (oneWord w).pc = some w ∧
    (oneWord w).mem.read ((oneWord w).pc + 1) = none

/-- The hypotheses of the faults of an index or register access, shared by the instructions that have them. -/
abbrev RegisterFaults : Prop :=
    IndexRaises sample 8 (.undefinedRegister 8) ∧ IndexRaises sample 3 (.unwrittenRegister (.gr 3)) ∧
    (IndexHolds sample 0 0 ∧ RegReadRaises sample 8 (.undefinedRegister 8)) ∧
    (IndexHolds sample 2 3 ∧ RegReadRaises sample 3 (.unwrittenRegister (.gr 3))) ∧
    (RegHolds sample 7 0xFFFF ∧ RegReadRaises sample 8 (.undefinedRegister 8)) ∧
    (RegHolds sample 1 5 ∧ RegReadRaises sample 3 (.unwrittenRegister (.gr 3)))

theorem witness_register_faults : RegisterFaults :=
  ⟨sample_index_undefined, sample_index_unwritten, ⟨sample_no_index, sample_undefined⟩,
    ⟨sample_index, sample_unwritten⟩, ⟨sample_gr7, sample_undefined⟩, ⟨sample_gr1, sample_unwritten⟩⟩

theorem witness_EncodeInvertsDecode : decode [0x64F3, 0x0010, 7] = .ok (.jump 0x0010 3, [7]) := rfl

theorem witness_UnlistedOpcodeFaults : (oneWord 0x1300).status = .running ∧
    (oneWord 0x1300).mem.read (oneWord 0x1300).pc = some 0x1300 ∧ opcodeOf 0x1300 ∉ listedOpcodes := by decide

theorem witness_OtherSvcWordsFault : (oneWord 0xFF12).status = .running ∧
    (oneWord 0xFF12).mem.read (oneWord 0xFF12).pc = some 0xFF12 ∧ opcodeOf 0xFF12 = 0xFF ∧
    (0xFF12 : Word) ≠ 0xFF02 := by decide

theorem witness_IgnoredBitsDoNotMatter :
    (opcodeOf 0x6403 ∈ [(0x61 : OpByte), 0x63, 0x64, 0x65] ∧ (0x6403 : Word) &&& 0xFF0F = 0x64F3 &&& 0xFF0F) ∧
    (opcodeOf 0x8100 = 0x81 ∧ opcodeOf 0x81FF = 0x81) := by decide

/-- The operand word at the wrap of the address space, one word left over. -/
theorem witness_StepRunsDecodedInstruction : let s := at_ 0xFFFF [(0xFFFF, 0x1210), (0, 9), (1, 0x8100)] []
    s.status = .running ∧
    (∀ k, k < [(0x1210 : Word), 9, 0x8100].length →
      s.mem.read (s.pc + BitVec.ofNat 16 k) = [(0x1210 : Word), 9, 0x8100][k]?) ∧
    decode [0x1210, 9, 0x8100] = .ok (.lad 1 9 0, [0x8100]) := ⟨by decide, by decide, rfl⟩

theorem witness_StoppedStepChangesNothing : (State.reset.setStatus .halted).status ≠ .running ∧
    (after State.reset).status ≠ .running := by decide

theorem witness_FetchOfUnwrittenWordFaults :
    (State.reset.status = .running ∧ State.reset.mem.read State.reset.pc = none) ∧
    (LacksSecond 0x1010 ∧ decodeFirst 0x1010 = .ok .ldMem ∧ 2 ≤ Opcode.ldMem.words) ∧
    (twoWords.status = .running ∧ twoWords.mem.read twoWords.pc = some 0xFF02 ∧
      decodeFirst 0xFF02 = .ok .svc ∧ Opcode.svc.words = 3 ∧
      twoWords.mem.read (twoWords.pc + 1) ≠ none ∧ twoWords.mem.read (twoWords.pc + 2) = none) :=
  ⟨by decide, ⟨by decide, rfl, by decide⟩, by decide, by decide, rfl, rfl, by decide, by decide⟩

theorem witness_FaultIsPrecise : State.reset.status = .running ∧ step State.reset = .next (after State.reset) ∧
    (after State.reset).status = .faulted ⟨.uninitializedMemory 0, 0, none⟩ := ⟨rfl, rfl, by decide⟩

theorem witness_InvalidExternalInputUnreachable : (oneWord 0xFF12).status = .running ∧
    step (oneWord 0xFF12) = .next (after (oneWord 0xFF12)) ∧
    (after (oneWord 0xFF12)).status = .faulted ⟨.unsupportedSvc 0xFF12, 0xFFFF, some 0xFF12⟩ := ⟨rfl, rfl, by decide⟩

theorem witness_LoadFromMemory :
    ((7 : RegField).toNat = (7 : Fin 8).val ∧ IndexHolds sample 2 3 ∧ sample.mem.read (0xFFFF + 3) = some 0x8000) ∧
    ((0 : RegField).toNat = (0 : Fin 8).val ∧ IndexHolds sample 0 0 ∧ sample.mem.read (0x0040 + 0) = some 7) ∧
    IndexRaises sample 8 (.undefinedRegister 8) ∧
    (IndexHolds sample 2 3 ∧ sample.mem.read (0x004D + 3) = none) ∧
    (IndexHolds sample 2 3 ∧ sample.mem.read (0xFFFF + 3) = some 0x8000 ∧ 8 ≤ (8 : RegField).toNat) ∧
    LacksSecond (0x10#8 ++ 1#4 ++ 2#4) :=
  ⟨⟨rfl, sample_index, by decide⟩, ⟨rfl, sample_no_index, by decide⟩, sample_index_undefined,
    ⟨sample_index, by decide⟩, ⟨sample_index, by decide, by decide⟩, by decide⟩

theorem witness_StoreToMemory :
    (IndexHolds sample 2 3 ∧ RegHolds sample 7 0xFFFF) ∧ IndexRaises sample 3 (.unwrittenRegister (.gr 3)) ∧
    (IndexHolds sample 0 0 ∧ RegReadRaises sample 8 (.undefinedRegister 8)) ∧ LacksSecond (0x11#8 ++ 1#4 ++ 0#4) :=
  ⟨⟨sample_index, sample_gr7⟩, sample_index_unwritten, ⟨sample_no_index, sample_undefined⟩, by decide⟩

theorem witness_LoadAddress :
    ((7 : RegField).toNat = (7 : Fin 8).val ∧ IndexHolds sample 2 3) ∧
    IndexRaises sample 8 (.undefinedRegister 8) ∧ (IndexHolds sample 0 0 ∧ 8 ≤ (8 : RegField).toNat) ∧
    LacksSecond (0x12#8 ++ 1#4 ++ 0#4) :=
  ⟨⟨rfl, sample_index⟩, sample_index_undefined, ⟨sample_no_index, by decide⟩, by decide⟩

theorem witness_LoadFromRegister :
    ((0 : RegField).toNat = (0 : Fin 8).val ∧ RegHolds sample 0 1) ∧
    RegReadRaises sample 8 (.undefinedRegister 8) ∧ RegReadRaises sample 3 (.unwrittenRegister (.gr 3)) ∧
    (RegHolds sample 7 0xFFFF ∧ 8 ≤ (15 : RegField).toNat) :=
  ⟨⟨rfl, sample_gr0⟩, sample_undefined, sample_unwritten, sample_gr7, by decide⟩

/-- The hypotheses of the result and of the unwritten operand of ADDA, AND and CPA on memory. -/
abbrev MemoryOperands : Prop :=
    ((1 : RegField).toNat = (1 : Fin 8).val ∧ IndexHolds sample 2 3 ∧ sample.gr[(1 : Fin 8)] = ⟨5, true⟩ ∧
      sample.mem.read (0xFFFF + 3) = some 0x8000) ∧
    (IndexHolds sample 2 3 ∧ RegHolds sample 1 5 ∧ sample.mem.read (0xFFFF + 3) = some 0x8000) ∧
    (IndexHolds sample 0 0 ∧ RegHolds sample 7 0xFFFF ∧ sample.mem.read (0x0050 + 0) = none)

theorem witness_memory_operands : MemoryOperands :=
  ⟨⟨rfl, sample_index, rfl, by decide⟩, ⟨sample_index, sample_gr1, by decide⟩,
    ⟨sample_no_index, sample_gr7, by decide⟩⟩

/-- The hypotheses of the result of SUBA, AND and CPA on registers, r1 and r2 equal among them. -/
abbrev RegisterOperands : Prop :=
    ((7 : RegField).toNat = (7 : Fin 8).val ∧ sample.gr[(7 : Fin 8)] = ⟨0xFFFF, true⟩ ∧ RegHolds sample 2 3) ∧
    ((1 : RegField).toNat = (1 : Fin 8).val ∧ sample.gr[(1 : Fin 8)] = ⟨5, true⟩ ∧ RegHolds sample 1 5) ∧
    (RegHolds sample 7 0xFFFF ∧ RegHolds sample 2 3)

theorem witness_register_operands : RegisterOperands :=
  ⟨⟨rfl, rfl, sample_gr2⟩, ⟨rfl, rfl, sample_gr1⟩, sample_gr7, sample_gr2⟩

theorem witness_AddFromMemory : MemoryOperands ∧ RegisterFaults ∧ LacksSecond (0x20#8 ++ 1#4 ++ 0#4) :=
  ⟨witness_memory_operands, witness_register_faults, by decide⟩

theorem witness_AndFromMemory : MemoryOperands ∧ RegisterFaults ∧ LacksSecond (0x30#8 ++ 1#4 ++ 0#4) :=
  ⟨witness_memory_operands, witness_register_faults, by decide⟩

theorem witness_CompareWithMemory : MemoryOperands ∧ RegisterFaults ∧ LacksSecond (0x40#8 ++ 1#4 ++ 0#4) :=
  ⟨witness_memory_operands, witness_register_faults, by decide⟩


theorem witness_SubtractRegister : RegisterOperands ∧ RegisterFaults :=
  ⟨witness_register_operands, witness_register_faults⟩

theorem witness_AndRegister : RegisterOperands ∧ RegisterFaults :=
  ⟨witness_register_operands, witness_register_faults⟩

theorem witness_CompareRegisters : RegisterOperands ∧ RegisterFaults :=
  ⟨witness_register_operands, witness_register_faults⟩

/-- A jump taken and not taken, its index and its unwritten flag. -/
theorem witness_JumpOnMinus :
    (IndexHolds sample 2 3 ∧ sample.flags.sf = ⟨false, true⟩) ∧
    (IndexHolds (withFlags true false sample) 2 3 ∧ (withFlags true false sample).flags.sf = ⟨true, true⟩) ∧
    IndexRaises sample 8 (.undefinedRegister 8) ∧
    (IndexHolds State.reset 0 0 ∧ State.reset.flags.sf.written = false) ∧ LacksSecond (0x61#8 ++ 0#4 ++ 0#4) :=
  ⟨⟨sample_index, rfl⟩, ⟨.inr ⟨by decide, 2, rfl, rfl⟩, rfl⟩, sample_index_undefined, ⟨.inl ⟨rfl, rfl⟩, rfl⟩,
    by decide⟩

theorem witness_JumpOnZero :
    (IndexHolds sample 2 3 ∧ sample.flags.zf = ⟨false, true⟩) ∧
    (IndexHolds (withFlags false true sample) 2 3 ∧ (withFlags false true sample).flags.zf = ⟨true, true⟩) ∧
    IndexRaises sample 3 (.unwrittenRegister (.gr 3)) ∧
    (IndexHolds State.reset 0 0 ∧ State.reset.flags.zf.written = false) ∧ LacksSecond (0x63#8 ++ 15#4 ++ 0#4) :=
  ⟨⟨sample_index, rfl⟩, ⟨.inr ⟨by decide, 2, rfl, rfl⟩, rfl⟩, sample_index_unwritten, ⟨.inl ⟨rfl, rfl⟩, rfl⟩,
    by decide⟩

theorem witness_JumpAlways :
    IndexHolds sample 7 0xFFFF ∧ IndexRaises sample 8 (.undefinedRegister 8) ∧ LacksSecond (0x64#8 ++ 0#4 ++ 0#4) :=
  ⟨.inr ⟨by decide, sample_gr7⟩, sample_index_undefined, by decide⟩

/-- SF written and ZF not: a state no run reaches, which the last clause of JPL is about all the same. -/
def onlySf : State := State.reset.putFlags ⟨emptyFlag, ⟨true, true⟩, emptyFlag⟩

theorem witness_JumpOnPlus :
    (IndexHolds sample 2 3 ∧ sample.flags.sf = ⟨false, true⟩ ∧ sample.flags.zf = ⟨false, true⟩) ∧
    IndexRaises sample 8 (.undefinedRegister 8) ∧
    (IndexHolds State.reset 0 0 ∧ State.reset.flags.sf.written = false) ∧
    (IndexHolds onlySf 0 0 ∧ onlySf.flags.sf.written = true ∧ onlySf.flags.zf.written = false) ∧
    LacksSecond (0x65#8 ++ 0#4 ++ 0#4) :=
  ⟨⟨sample_index, rfl, rfl⟩, sample_index_undefined, ⟨.inl ⟨rfl, rfl⟩, rfl⟩, ⟨.inl ⟨rfl, rfl⟩, rfl, rfl⟩, by decide⟩

theorem witness_ReturnHalts : (oneWord 0x81FF).status = .running ∧
    (oneWord 0x81FF).mem.read (oneWord 0x81FF).pc = some (0x81#8 ++ 0xFF#8) := by decide

/-- A block that wraps; the empty block; the two bounds of the length word; an unwritten word after two written. -/
theorem witness_SupervisorOutput :
    (sample.mem.read 0x0020 = some 2 ∧ (2 : Word).toNat < 0x8000 ∧ [(3 : Word), 9].length = (2 : Word).toNat ∧
      ∀ j, j < (2 : Word).toNat → sample.mem.read (0xFFFF + BitVec.ofNat 16 j) = [(3 : Word), 9][j]?) ∧
    (sample.mem.read 0x0022 = some 0 ∧ (0 : Word).toNat < 0x8000 ∧ ([] : List Word).length = (0 : Word).toNat) ∧
    sample.mem.read 0x0050 = none ∧
    (sample.mem.read 0x0002 = some 0x8000 ∧ 0x8000 ≤ (0x8000 : Word).toNat) ∧
    (sample.mem.read 0x0021 = some 0x7FFF ∧ (0x7FFF : Word).toNat < 0x8000 ∧ 2 < (0x7FFF : Word).toNat ∧
      (∀ m, m < 2 → sample.mem.read (0xFFFF + BitVec.ofNat 16 m) ≠ none) ∧
      sample.mem.read (0xFFFF + BitVec.ofNat 16 2) = none) ∧
    LacksSecond 0xFF02 ∧
    (twoWords.status = .running ∧ twoWords.mem.read twoWords.pc = some 0xFF02 ∧
      twoWords.mem.read (twoWords.pc + 1) ≠ none ∧ twoWords.mem.read (twoWords.pc + 2) = none) := by decide

theorem witness_EffectiveAddressRule :
    ((7 : RegField) ≠ 0 ∧ RegHolds sample 7 0xFFFF) ∧
    ((8 : RegField) ≠ 0 ∧ RegReadRaises sample 8 (.undefinedRegister 8)) ∧
    ((3 : RegField) ≠ 0 ∧ RegReadRaises sample 3 (.unwrittenRegister (.gr 3))) :=
  ⟨⟨by decide, sample_gr7⟩, ⟨by decide, sample_undefined⟩, by decide, sample_unwritten⟩

theorem witness_SetFlagsRule : (0 : Int) < 1 ∧ (0 : Int) < 65535 := by decide

/-- A non-writer, a writer, and a writer that faults. -/
theorem witness_FlagsChangeOnlyByFlagWriters :
    (exec (.lad 1 5 0) sample = .next (stateOf (exec (.lad 1 5 0) sample)) ∧ setsFlags (.lad 1 5 0) = false) ∧
    (exec (.cpaReg 1 2) sample = .next (stateOf (exec (.cpaReg 1 2) sample)) ∧ setsFlags (.cpaReg 1 2) = true) ∧
    (exec (.cpaReg 1 8) sample = .next (stateOf (exec (.cpaReg 1 8) sample)) ∧ setsFlags (.cpaReg 1 8) = true) :=
  ⟨⟨rfl, rfl⟩, ⟨rfl, rfl⟩, rfl, rfl⟩

/-- An advance, a jump, the halt and a fault. -/
theorem witness_AdvanceOrJump :
    exec (.lad 1 5 0) sample = .next (stateOf (exec (.lad 1 5 0) sample)) ∧
    exec (.jump 0xFFFF 2) sample = .next (stateOf (exec (.jump 0xFFFF 2) sample)) ∧
    exec .ret sample = .next (stateOf (exec .ret sample)) ∧
    exec (.jump 0 8) sample = .next (stateOf (exec (.jump 0 8) sample)) := ⟨rfl, rfl, rfl, rfl⟩

/-- A running state whose step is a SUBA. -/
def subaState : State := withFlags true false (at_ 0 [(0, 0x2512)] [(1, 3), (2, 3)])

theorem witness_OverflowFlagNeverSet : step subaState = .next (after subaState) := rfl

theorem witness_OutputHistoryNeverRead : step subaState = .next (after subaState) := rfl

theorem witness_MarkersNeverCleared : step subaState = .next (after subaState) ∧
    subaState.gr[(1 : Fin 8)].written = true ∧ subaState.flags.of.written = true ∧
    subaState.flags.sf.written = true ∧ subaState.flags.zf.written = true ∧ subaState.mem.read 0 ≠ none :=
  ⟨rfl, rfl, rfl, rfl, rfl, by decide⟩

theorem witness_StepKeepsInvariant : State.reset.Inv ∧ subaState.Inv ∧ step subaState = .next (after subaState) :=
  ⟨⟨by decide, by decide, trivial, trivial⟩, ⟨by decide, by decide, trivial, trivial⟩, rfl⟩

/-- Two states that differ, only beside clear markers. -/
theorem witness_UnwrittenValuesUnobservable :
    let t := { subaState with gr := subaState.gr.set (4 : Fin 8) ⟨0x1234, false⟩ }
    observe subaState = observe t ∧ subaState ≠ t ∧ step subaState = .next (after subaState) ∧
      step t = .next (after t) := by
  have h : (subaState.gr.set (4 : Fin 8) ⟨0x1234, false⟩).map Marked.seen = subaState.gr.map Marked.seen := by
    apply Vector.ext
    intro i hi
    rw [Vector.getElem_map, Vector.getElem_map]
    interval_cases i <;> rfl
  exact ⟨by simp only [observe, h], by decide, rfl, rfl⟩

theorem witness_RunIsRepeatedStep : hostRun 1 subaState = .next (after subaState) := rfl

/-- A halt and a fault. -/
theorem witness_StoppedIsPermanent :
    (Host.Core.run Sys2Proof.core 1 (oneWord 0x8100) = .next (after (oneWord 0x8100)) ∧
      (after (oneWord 0x8100)).Stopped) ∧
    (Host.Core.run Sys2Proof.core 1 State.reset = .next (after State.reset) ∧ (after State.reset).Stopped) :=
  ⟨⟨rfl, by unfold State.Stopped; decide⟩, rfl, by unfold State.Stopped; decide⟩

theorem witness_HaltOnlyByRet : (oneWord 0x8100).status = .running ∧
    step (oneWord 0x8100) = .next (after (oneWord 0x8100)) ∧ (after (oneWord 0x8100)).status = .halted :=
  ⟨rfl, rfl, by decide⟩

theorem witness_ImageLoadRule :
    [((0xFFFF : Word), (1 : Word)), (0, 2)].Pairwise (fun p q => p.1 ≠ q.1) ∧ State.reset.mem.wf = true := by decide

theorem witness_DumpShowsMemory : sample.mem.wf = true ∧ (observe sample).dump.length = 7 := by decide

theorem witness_WriteThenRead : exec (.st 1 0x0050 2) sample = .next (stateOf (exec (.st 1 0x0050 2) sample)) ∧
    (stateOf (exec (.st 1 0x0050 2) sample)).mem ≠ sample.mem := ⟨rfl, by decide⟩

theorem witness_OutputsGrowOnlyBySvc :
    exec (.svc 0xFFFF 0x0020) sample = .next (stateOf (exec (.svc 0xFFFF 0x0020) sample)) ∧
    (stateOf (exec (.svc 0xFFFF 0x0020) sample)).outputs = sample.outputs ++ [[3, 9]] ∧
    exec (.svc 0xFFFF 0x0050) sample = .next (stateOf (exec (.svc 0xFFFF 0x0050) sample)) :=
  ⟨rfl, by decide, rfl⟩

theorem witness_SupervisorFrame :
    exec (.svc 0xFFFF 0x0020) sample = .next (stateOf (exec (.svc 0xFFFF 0x0020) sample)) := rfl

theorem witness_BranchesAfterCompare : RegHolds sample 7 0xFFFF ∧ RegHolds sample 1 5 ∧ IndexHolds sample 2 3 ∧
    exec (.cpaReg 7 1) sample = .next (stateOf (exec (.cpaReg 7 1) sample)) :=
  ⟨sample_gr7, sample_gr1, sample_index, rfl⟩

/-- A store of a RET into the next instruction's place. -/
theorem witness_StoreSeenByNextFetch : let s := at_ 0 [(0, 0x1110), (1, 0x0002)] [(1, 0x8100)]
    s.status = .running ∧ fetch s = .ok (.st 1 0x0002 0) ∧ effectiveAddress 0 0x0002 s = .ok 0x0002 ∧
      readReg 1 s = .ok 0x8100 ∧ (0x0002 : Word) = s.pc + 2 ∧ opcodeOf 0x8100 = 0x81 :=
  ⟨rfl, rfl, rfl, rfl, by decide, by decide⟩

theorem witness_LoadAndAluFrame :
    exec (.ldMem 1 0x0040 0) sample = .next (stateOf (exec (.ldMem 1 0x0040 0) sample)) ∧
    exec (.ldReg 3 1) sample = .next (stateOf (exec (.ldReg 3 1) sample)) ∧
    exec (.adda 1 0x0040 0) sample = .next (stateOf (exec (.adda 1 0x0040 0) sample)) ∧
    exec (.suba 1 2) sample = .next (stateOf (exec (.suba 1 2) sample)) ∧
    exec (.andMem 1 0x0040 0) sample = .next (stateOf (exec (.andMem 1 0x0040 0) sample)) ∧
    exec (.andReg 1 2) sample = .next (stateOf (exec (.andReg 1 2) sample)) := ⟨rfl, rfl, rfl, rfl, rfl, rfl⟩

theorem witness_LoadAddressFrame : exec (.lad 3 5 2) sample = .next (stateOf (exec (.lad 3 5 2) sample)) := rfl

/-- A store that lands and one whose index register is unwritten. -/
theorem witness_StoreFrame :
    (exec (.st 1 0xFFFF 2) sample = .next (stateOf (exec (.st 1 0xFFFF 2) sample)) ∧
      effectiveAddress 2 0xFFFF sample = .ok 2) ∧
    (exec (.st 1 0xFFFF 3) sample = .next (stateOf (exec (.st 1 0xFFFF 3) sample)) ∧
      effectiveAddress 3 0xFFFF sample = .error (.unwrittenRegister (.gr 3))) := ⟨⟨rfl, rfl⟩, rfl, rfl⟩

theorem witness_CompareFrame :
    exec (.cpaMem 1 0x0040 0) sample = .next (stateOf (exec (.cpaMem 1 0x0040 0) sample)) ∧
    exec (.cpaReg 1 2) sample = .next (stateOf (exec (.cpaReg 1 2) sample)) := ⟨rfl, rfl⟩

theorem witness_ControlFrame :
    exec (.jmi 0x0040 0) sample = .next (stateOf (exec (.jmi 0x0040 0) sample)) ∧
    exec (.jze 0x0040 0) sample = .next (stateOf (exec (.jze 0x0040 0) sample)) ∧
    exec (.jump 0x0040 0) sample = .next (stateOf (exec (.jump 0x0040 0) sample)) ∧
    exec (.jpl 0x0040 0) sample = .next (stateOf (exec (.jpl 0x0040 0) sample)) ∧
    exec .ret sample = .next (stateOf (exec .ret sample)) := ⟨rfl, rfl, rfl, rfl, rfl⟩

theorem witness_AssembledLineDecodes : Assembler.MachineMnemonic.ld ≠ .svc ∧
    Assembler.machineWords "LD".toList .ld "GR1".toList "ARR".toList "GR2".toList =
      .ok [.word 0x1012, .labelRef "ARR".toList] := ⟨by decide, rfl⟩

/-- What the allocate pass leaves of program P2: six words, one patch and one literal. -/
def allocatedP2 : Assembler.Assembly :=
  ⟨6, [(0, 0x1000), (1, 0), (2, 0x1100), (3, 0), (4, 0x8100), (5, 0)], [("RESULT".toList, 5)],
    [(3, "RESULT".toList)], [(1, 10)], [(0, 0), (2, 1), (4, 2), (5, 3)]⟩

/-- The image of L1.3 with the tables. -/
def assembledP2 : Assembler.Program :=
  ⟨[(0, 0x1000), (1, 6), (2, 0x1100), (3, 5), (4, 0x8100), (5, 0), (6, 10)], [("RESULT".toList, 5)],
    [(0, 0), (2, 1), (4, 2), (5, 3)]⟩

theorem witness_ImageIsContiguous : Assembler.assemble programP2 = .ok assembledP2 ∧
    Assembler.allocate 0 programP2 Assembler.Assembly.empty = .ok allocatedP2 := ⟨rfl, rfl⟩

theorem witness_LabelPatchesHoldAddresses : Assembler.assemble programP2 = .ok assembledP2 ∧
    Assembler.allocate 0 programP2 Assembler.Assembly.empty = .ok allocatedP2 ∧
    (3, "RESULT".toList) ∈ allocatedP2.patches := ⟨rfl, rfl, by decide⟩

theorem witness_LiteralPoolInOrder : Assembler.assemble programP2 = .ok assembledP2 ∧
    Assembler.allocate 0 programP2 Assembler.Assembly.empty = .ok allocatedP2 ∧
    allocatedP2.literals[0]? = some (1, 10) := ⟨rfl, rfl, rfl⟩

end Sys2Proof.Tests
end

section
/-!
PROOFS. The memory family: what an instruction can do to the Word Store.
-/

namespace Sys2Proof.Machine

/-- R53: of all the effects of an instruction, a fault included, only a store's is one on memory. -/
theorem Effect.mem_eq_or_st {s t : State} {i : Instr} (h : Effect s i t) :
    t.mem = s.mem ∨ ∃ r1 adr x, i = .st r1 adr x := by
  cases h with
  | st k v hk hv => exact .inr ⟨_, _, _, rfl⟩
  | _ => exact .inl rfl

/-- Settles O42, from the read-after-write rule of the Word Store and the case split over an instruction's effects. -/
theorem writeThenRead : Obligations.WriteThenRead := by
  unfold Obligations.WriteThenRead
  constructor
  · intro a v b s
    rw [memWrite_mem, Memory.read_write]
  · intro i s t h hne
    exact (exec_effect h).mem_eq_or_st.resolve_left hne

end Sys2Proof.Machine
end

section
/-!
PROOFS. The encoding family, the unit's side: first words the decoder rejects (R86, R88) and the faults their steps
raise (R231, R236).
-/

namespace Sys2Proof

/-- The bytes R120 lists are those of the opcode map, row by row. -/
theorem listedOpcodes_eq_bytes : Machine.listedOpcodes = Opcode.all.map Opcode.byte := rfl

/-- No row of the opcode map has a byte that R120 does not list. -/
theorem Opcode.ofByte_eq_none {b : OpByte} : Opcode.ofByte b = none ↔ b ∉ Machine.listedOpcodes := by
  simp [Opcode.ofByte, listedOpcodes_eq_bytes]

/-- R86: a first word whose opcode byte is outside the map is rejected with that byte. -/
theorem decodeFirst_of_unlisted {w0 : Word} (h : opcodeOf w0 ∉ Machine.listedOpcodes) :
    decodeFirst w0 = .error (.unimplementedOpcode (opcodeOf w0)) := by
  simp [decodeFirst, Opcode.ofByte_eq_none.mpr h]

/-- The three fields of the supervisor call's first word make up 0xFF02. -/
theorem eq_svcWord_of_fields {w0 : Word} (hop : opcodeOf w0 = 0xFF) (h1 : field1 w0 = 0)
    (h2 : field2 w0 = Config.svcOutputType) : w0 = 0xFF02 := by
  have hw := fields_eq w0
  rw [hop, h1, h2] at hw
  exact hw.symm

/-- R88: of the first words with opcode 0xFF only 0xFF02 is not rejected. -/
theorem decodeFirst_of_otherSvc {w0 : Word} (hop : opcodeOf w0 = 0xFF) (hne : w0 ≠ 0xFF02) :
    decodeFirst w0 = .error (.unsupportedSvc w0) := by
  have hrow : Opcode.ofByte (opcodeOf w0) = some .svc := hop ▸ Opcode.ofByte_byte .svc
  have hlow : ¬ (field1 w0 = 0 ∧ field2 w0 = Config.svcOutputType) :=
    fun h => hne (eq_svcWord_of_fields hop h.1 h.2)
  simp only [decodeFirst, hrow]
  exact if_pos ⟨trivial, hlow⟩

end Sys2Proof

namespace Sys2Proof.Machine

/-- A running step whose first word is rejected takes the fault of the rejection, whatever words follow (R129). -/
theorem step_of_decodeFirst_error {s : State} {w0 : Word} {e : Reject} (hs : s.status = .running)
    (hw : s.mem.read s.pc = some w0) (he : decodeFirst w0 = .error e) :
    step s = .next (faultedAs (rejectCause s.pc e) s) :=
  step_unfetched hs (fetch_eq_error.mpr (.inr (.inl ⟨w0, e, hw, he, rfl⟩)))

/-- Settles O4, from the rejection of the first word; the 240 unlisted bytes are counted. -/
theorem unlistedOpcodeFaults : Obligations.UnlistedOpcodeFaults := by
  unfold Obligations.UnlistedOpcodeFaults
  refine ⟨?_, fun _ => rfl, ?_, ?_⟩
  · intro s w0 hs hw hun
    exact step_of_decodeFirst_error hs hw (decodeFirst_of_unlisted hun)
  · decide +kernel
  · decide

/-- Settles O5, from the rejection of the first word; the legal word 0xFF02 is the one the encoder packs. -/
theorem otherSvcWordsFault : Obligations.OtherSvcWordsFault := by
  unfold Obligations.OtherSvcWordsFault
  refine ⟨?_, fun _ => rfl, ?_⟩
  · intro s w0 hs hw hop hne
    exact step_of_decodeFirst_error hs hw (decodeFirst_of_otherSvc hop hne)
  · intro dp lp
    exact decode_eq_ok.mpr ⟨0xFF02, [dp, lp], .svc, rfl, decodeFirst_svc, le_refl 3, rfl, rfl⟩

end Sys2Proof.Machine
end

section
/-!
PROOFS. The encoding family, the assembler's side: the image as the passes write it, what every pass keeps, and the
literal pool (R111).
-/

namespace Sys2Proof.Assembler

open Sys2Proof.Machine (bind_eq_ok)

/-! ### The image -/

/-- A written address holds the word written. -/
theorem mem_writeImage_same (m : List (Nat × Word)) (a : Nat) (v : Word) : (a, v) ∈ writeImage m a v := by
  fun_induction writeImage m a v with
  | case1 => simp
  | case2 => simp
  | case3 k w m a v hk ih => exact List.mem_cons_of_mem _ ih

/-- A write leaves the entries of the other addresses. -/
theorem mem_writeImage_of_ne {m : List (Nat × Word)} {a b : Nat} {v w : Word} (hb : b ≠ a) (h : (b, w) ∈ m) :
    (b, w) ∈ writeImage m a v := by
  induction m with
  | nil => cases h
  | cons e m ih =>
    obtain ⟨k, u⟩ := e
    unfold writeImage
    split
    · next hk => simpa [hk, hb] using h
    · rcases List.mem_cons.mp h with h | h
      · exact h ▸ List.mem_cons_self
      · exact List.mem_cons_of_mem _ (ih h)

/-! ### The passes -/

/-- The allocate pass goes on with a line's words after its label and its source record (R105). -/
theorem allocate_cons_eq_ok {n : Nat} {line : SourceLine} {rest : List SourceLine} {s t : Assembly} :
    allocate n (line :: rest) s = .ok t ↔
      ∃ es, lineWords line = .ok es ∧ s.cursor + es.length ≤ 65536 ∧
        allocate (n + 1) rest (emitWords es (recordSource n es (defineLabel line.label s))) = .ok t := by
  simp only [allocate, bind_eq_ok]
  refine exists_congr fun es => and_congr_right fun _ => ?_
  split <;> simp [*]

/-- The literal pass goes on at the next address, after the literal and its placeholder (R111). -/
theorem allocateLiterals_cons_eq_ok {p a : Nat} {v : Word} {rest image out : List (Nat × Word)} :
    allocateLiterals p ((a, v) :: rest) image = .ok out ↔
      p < 65536 ∧ allocateLiterals (p + 1) rest (writeImage (writeImage image p v) a (BitVec.ofNat 16 p)) = .ok out := by
  rw [allocateLiterals]
  split <;> simp [*]

/-- A program assembles when its three passes do. -/
theorem assemble_eq_ok {lines : List SourceLine} {p : Program} :
    assemble lines = .ok p ↔
      ∃ s solved image, allocate 0 lines Assembly.empty = .ok s ∧ solveLabels s.labels s.patches s.image = .ok solved ∧
        allocateLiterals s.cursor s.literals solved = .ok image ∧ p = ⟨image, s.labels, s.sourceIndex⟩ := by
  simp only [assemble, bind_eq_ok, Except.ok.injEq, eq_comm (a := p), exists_and_left]

/-- What emitting a line's words keeps is what emitting one word keeps. -/
theorem emitWords_keeps {P : Assembly → Prop} (emit : ∀ e s, P s → P (emitWord e s)) (es : List Emitted)
    {s : Assembly} (h : P s) : P (emitWords es s) := by
  induction es generalizing s with
  | nil => exact h
  | cons e es ih => exact ih (emit e s h)

/-- What a word, a label and a source record each keep, the allocate pass keeps. -/
theorem allocate_keeps {P : Assembly → Prop} (emit : ∀ e s, P s → P (emitWord e s))
    (label : ∀ t s, P s → P (defineLabel t s)) (source : ∀ n es s, P s → P (recordSource n es s))
    {n : Nat} {lines : List SourceLine} {s t : Assembly} (h : allocate n lines s = .ok t) (hs : P s) : P t := by
  induction lines generalizing n s with
  | nil => cases h; exact hs
  | cons line rest ih =>
    obtain ⟨es, -, -, hrest⟩ := allocate_cons_eq_ok.mp h
    exact ih hrest (emitWords_keeps emit es (source _ _ _ (label _ _ hs)))

theorem defineLabel_cursor (t : Text) (s : Assembly) : (defineLabel t s).cursor = s.cursor := by
  unfold defineLabel
  split <;> rfl

theorem defineLabel_literals (t : Text) (s : Assembly) : (defineLabel t s).literals = s.literals := by
  unfold defineLabel
  split <;> rfl

theorem recordSource_cursor (n : Nat) (es : List Emitted) (s : Assembly) :
    (recordSource n es s).cursor = s.cursor := by
  unfold recordSource
  split <;> rfl

theorem recordSource_literals (n : Nat) (es : List Emitted) (s : Assembly) :
    (recordSource n es s).literals = s.literals := by
  unfold recordSource
  split <;> rfl

/-! ### Placeholders -/

/-- The scheduled placeholders are distinct addresses of code or data, all below `p`. -/
def PlaceholdersBelow {α : Type} (p : Nat) (scheduled : List (Nat × α)) : Prop :=
  scheduled.Pairwise (fun d e => d.1 ≠ e.1) ∧ ∀ e ∈ scheduled, e.1 < p

theorem PlaceholdersBelow.next {α : Type} {p : Nat} {scheduled : List (Nat × α)} (h : PlaceholdersBelow p scheduled) :
    PlaceholdersBelow (p + 1) scheduled :=
  ⟨h.1, fun e he => Nat.lt_succ_of_lt (h.2 e he)⟩

/-- A placeholder scheduled at the cursor is a new one. -/
theorem PlaceholdersBelow.schedule {α : Type} {p : Nat} {scheduled : List (Nat × α)} (h : PlaceholdersBelow p scheduled)
    (v : α) : PlaceholdersBelow (p + 1) (scheduled ++ [(p, v)]) := by
  obtain ⟨hne, hlt⟩ := h
  constructor
  · refine List.pairwise_append.mpr ⟨hne, List.pairwise_singleton _ _, fun e he d hd => ?_⟩
    cases List.mem_singleton.mp hd
    exact (hlt e he).ne
  · intro e he
    rcases List.mem_append.mp he with he | he
    · exact Nat.lt_succ_of_lt (hlt e he)
    · cases List.mem_singleton.mp he
      exact Nat.lt_succ_self p

/-- Every word emitted moves the cursor past it, so a literal's placeholder is never one scheduled before. -/
theorem emitWord_keeps_literals_below (e : Emitted) (s : Assembly) (h : PlaceholdersBelow s.cursor s.literals) :
    PlaceholdersBelow (emitWord e s).cursor (emitWord e s).literals := by
  cases e with
  | word w => exact h.next
  | literalRef v => exact h.schedule v
  | labelRef t => exact h.next

/-- The allocate pass leaves the literals' placeholders distinct and below the pool. -/
theorem allocate_literals_below {lines : List SourceLine} {s : Assembly}
    (h : allocate 0 lines Assembly.empty = .ok s) : PlaceholdersBelow s.cursor s.literals := by
  refine allocate_keeps (P := fun s => PlaceholdersBelow s.cursor s.literals) emitWord_keeps_literals_below ?_ ?_ h
    ⟨.nil, nofun⟩
  · intro t s hs
    rwa [defineLabel_cursor, defineLabel_literals]
  · intro n es s hs
    rwa [recordSource_cursor, recordSource_literals]

/-! ### The literal pool -/

/-- The literal pass leaves an entry below the pool that is no literal's placeholder. -/
theorem allocateLiterals_keeps {p b : Nat} {w : Word} {literals image out : List (Nat × Word)}
    (h : allocateLiterals p literals image = .ok out) (hb : b < p) (hne : ∀ e ∈ literals, b ≠ e.1)
    (hm : (b, w) ∈ image) : (b, w) ∈ out := by
  induction literals generalizing p image with
  | nil => cases h; exact hm
  | cons e rest ih =>
    obtain ⟨-, hrest⟩ := allocateLiterals_cons_eq_ok.mp h
    obtain ⟨he, hne⟩ := List.forall_mem_cons.mp hne
    exact ih hrest (Nat.lt_succ_of_lt hb) hne (mem_writeImage_of_ne he (mem_writeImage_of_ne hb.ne hm))

/-- R111: the literal pass places the `k`-th literal at `p + k` and its address at its placeholder. -/
theorem allocateLiterals_places {p : Nat} {literals image out : List (Nat × Word)}
    (h : allocateLiterals p literals image = .ok out) (hl : PlaceholdersBelow p literals)
    {k : Nat} {e : Nat × Word} (hk : literals[k]? = some e) :
    (p + k, e.2) ∈ out ∧ (e.1, BitVec.ofNat 16 (p + k)) ∈ out := by
  induction literals generalizing p image k with
  | nil => simp at hk
  | cons d rest ih =>
    obtain ⟨a, v⟩ := d
    obtain ⟨-, hrest⟩ := allocateLiterals_cons_eq_ok.mp h
    obtain ⟨hne, hlt⟩ := hl
    obtain ⟨hda, hne⟩ := List.pairwise_cons.mp hne
    obtain ⟨hap, hlt⟩ := List.forall_mem_cons.mp hlt
    cases k with
    | zero =>
      cases hk
      constructor
      · refine allocateLiterals_keeps hrest (Nat.lt_succ_self p) (fun e he => (hlt e he).ne') ?_
        exact mem_writeImage_of_ne (Nat.ne_of_gt hap) (mem_writeImage_same _ _ _)
      · exact allocateLiterals_keeps hrest (Nat.lt_succ_of_lt hap) hda (mem_writeImage_same _ _ _)
    | succ k =>
      have htail : PlaceholdersBelow (p + 1) rest := PlaceholdersBelow.next ⟨hne, hlt⟩
      rw [Nat.add_comm k 1, ← Nat.add_assoc]
      exact ih hrest htail hk

/-- Settles O58, from the distinct placeholders the allocate pass leaves and the literal pass on them. -/
theorem literalPoolInOrder : Obligations.LiteralPoolInOrder := by
  unfold Obligations.LiteralPoolInOrder
  intro lines p s hp hs k e hk
  obtain ⟨s', solved, image, hs', -, himage, rfl⟩ := assemble_eq_ok.mp hp
  cases hs.symm.trans hs'
  exact allocateLiterals_places himage (allocate_literals_below hs) hk

end Sys2Proof.Assembler
end

section
/-!
PROOFS. The execution-cycle family: the effective address (R124), SetFlags (R125), how an instruction ends (R127), and
the step as the one thing a run is made of (R131, R132).
-/

namespace Sys2Proof.Machine

/-! ### The effective address and SetFlags -/

/-- R124: the address word plus what the index field adds. -/
theorem effectiveAddress_of_indexHolds {s : State} {x : RegField} {k : Word} (adr : Word) (h : IndexHolds s x k) :
    effectiveAddress x adr s = .ok (adr + k) :=
  effectiveAddress_eq_ok.mpr ⟨k, h, rfl⟩

/-- Settles O28, from the rules of the effective address: index 0, an index register that holds a word, one that
raises. -/
theorem effectiveAddressRule : Obligations.EffectiveAddressRule := by
  unfold Obligations.EffectiveAddressRule
  intro s xf adr
  refine ⟨?_, fun k hx hk => ?_, fun c hx hc => ?_⟩
  · exact effectiveAddress_eq_ok.mpr ⟨0, .inl ⟨rfl, rfl⟩, (BitVec.add_zero adr).symm⟩
  · exact ⟨adr + k, effectiveAddress_of_indexHolds adr (.inr ⟨hx, hk⟩), BitVec.toNat_add adr k⟩
  · exact effectiveAddress_eq_error.mpr ⟨hx, hc⟩

/-- A positive result clears all three flags (R125). -/
theorem flagsOf_of_pos {r : Int} (h : 0 < r) : flagsOf r = ⟨⟨false, true⟩, ⟨false, true⟩, ⟨false, true⟩⟩ := by
  have hneg : ¬ r < 0 := by omega
  have hzero : ¬ r = 0 := by omega
  simp only [flagsOf, decide_eq_false hneg, decide_eq_false hzero]

/-- Settles O29: the flags written are those of the result, and a positive one clears SF and ZF. -/
theorem setFlagsRule : Obligations.SetFlagsRule := by
  unfold Obligations.SetFlagsRule
  refine fun r s => ⟨rfl, fun h => ?_⟩
  rw [setFlags_flags, flagsOf_of_pos h]
  exact ⟨rfl, rfl⟩

/-! ### Advance, jump, halt or fault -/

/-- The four jumps have two words (R84). -/
theorem words_of_jumpOperands {i : Instr} {o : Word × RegField} (h : jumpOperands i = some o) : i.words = 2 := by
  cases i with
  | jmi | jze | jump | jpl => rfl
  | _ => cases h

/-- A jump, taken or not, leaves PC at one of the two places R127 allows: past its words, or at its effective
address. -/
theorem jump_pc {s : State} {i : Instr} {adr k : Word} {x : RegField} (taken : Bool)
    (hi : jumpOperands i = some (adr, x)) (hk : IndexHolds s x k) :
    (if taken then adr + k else s.pc + 2) = s.pc + BitVec.ofNat 16 i.words ∨
      ∃ adr' x' ea, jumpOperands i = some (adr', x') ∧ effectiveAddress x' adr' s = .ok ea ∧
        (if taken then adr + k else s.pc + 2) = ea := by
  cases taken with
  | false => exact .inl (by rw [words_of_jumpOperands hi]; rfl)
  | true => exact .inr ⟨adr, x, adr + k, hi, effectiveAddress_of_indexHolds adr hk, rfl⟩

/-- Settles O48, by the case split over an instruction's effects: every effect but a fault, a jump and RET advances. -/
theorem advanceOrJump : Obligations.AdvanceOrJump := by
  unfold Obligations.AdvanceOrJump
  intro i s t h
  cases exec_effect h with
  | fault _ c => exact .inl ⟨c, rfl⟩
  | ret => exact .inr (.inr ⟨rfl, rfl⟩)
  | jmi k n hk => exact .inr (.inl ⟨nofun, rfl, jump_pc n rfl hk⟩)
  | jze k z hk => exact .inr (.inl ⟨nofun, rfl, jump_pc z rfl hk⟩)
  | jump k hk => exact .inr (.inl ⟨nofun, rfl, jump_pc true rfl hk⟩)
  | jpl k n z hk => exact .inr (.inl ⟨nofun, rfl, jump_pc (!n && !z) rfl hk⟩)
  | _ => exact .inr (.inl ⟨nofun, rfl, .inl rfl⟩)

/-! ### Steps and runs -/

/-- Settles O8: the stopped case of the step. -/
theorem stoppedStepChangesNothing : Obligations.StoppedStepChangesNothing := by
  unfold Obligations.StoppedStepChangesNothing
  exact fun s h => step_stopped h

/-- Every step answers a next state: the unit's faults are states too (R240). -/
theorem step_answers (s : State) : ∃ t, step s = .next t := by
  rcases step_cases s with ⟨-, h⟩ | ⟨-, i, -, h⟩ | ⟨-, c, -, h⟩
  · exact ⟨s, h⟩
  · rw [h]
    exact exec_answers i s
  · exact ⟨_, h⟩

/-- A run from a stopped state stays there (R130). -/
theorem hostRun_stopped {s : State} (h : s.status ≠ .running) (n : Nat) : hostRun n s = .next s := by
  cases n with
  | zero => rfl
  | succ n =>
    unfold hostRun
    cases hs : s.status with
    | running => exact absurd hs h
    | halted | faulted => rfl

/-- A run begins with a step, whatever the status: in a stopped state the step changes nothing and the run issues
none. -/
theorem hostRun_succ {s t : State} (h : step s = .next t) (n : Nat) : hostRun (n + 1) s = hostRun n t := by
  by_cases hs : s.status = .running
  · rw [hostRun, hs, h]
  · rw [step_stopped hs] at h
    cases h
    rw [hostRun_stopped hs, hostRun_stopped hs]

/-- The iterated step issues its first step and goes on from where that leads. -/
theorem coreRun_succ {s t : State} (h : step s = .next t) (n : Nat) :
    Host.Core.run Sys2Proof.core (n + 1) s = Host.Core.run Sys2Proof.core n t := by
  have hc : Sys2Proof.core.step s = .next t := h
  simp only [Host.Core.run, hc]

/-- R131: a run is the iterated step, although it stops issuing steps at the first stopped state. -/
theorem hostRun_eq_coreRun (n : Nat) (s : State) : hostRun n s = Host.Core.run Sys2Proof.core n s := by
  induction n generalizing s with
  | zero => rfl
  | succ n ih =>
    obtain ⟨t, ht⟩ := step_answers s
    rw [hostRun_succ ht, coreRun_succ ht, ih]

/-- Runs compose: where the first ends the second begins. -/
theorem hostRun_add {m : Nat} {s t : State} (n : Nat) (h : hostRun m s = .next t) :
    hostRun (m + n) s = hostRun n t := by
  induction m generalizing s with
  | zero =>
    cases h
    rw [Nat.zero_add]
  | succ m ih =>
    obtain ⟨u, hu⟩ := step_answers s
    rw [hostRun_succ hu] at h
    rw [Nat.succ_add, hostRun_succ hu, ih h]

/-- Settles O37, by induction on the number of steps: a run is the iterated step, and runs compose. -/
theorem runIsRepeatedStep : Obligations.RunIsRepeatedStep := by
  unfold Obligations.RunIsRepeatedStep
  exact ⟨hostRun_eq_coreRun, fun _ n _ _ h => hostRun_add n h⟩

end Sys2Proof.Machine
end

section
/-!
PROOFS. The load and store family (R150 to R153), after the rules its instructions share with the others of their
format: decoding a packed first word, the fetch of an operand word, the effective address at the head of an attempt,
and a result written to r1 with its flags.
-/

namespace Sys2Proof

/-- A packed first word with its row's operand words decodes to that row's instruction `mk` of the two fields packed
(R82 to R85). The supervisor call alone, whose fields are fixed, is left out. -/
theorem decode_packWord {op : Opcode} {tl : List Word} {mk : RegField → RegField → Instr} (hop : op ≠ .svc)
    (hlen : op.words = tl.length + 1)
    (hmk : ∀ w0, op.instr w0 (tl.getD 0 0) (tl.getD 1 0) = mk (field1 w0) (field2 w0)) (f1 f2 : RegField) :
    decode (packWord op f1 f2 :: tl) = .ok (mk f1 f2, []) := by
  refine Machine.decode_eq_ok.mpr ⟨_, tl, op, rfl, decodeFirst_packWord hop f1 f2, hlen.le, ?_, ?_⟩
  · rw [hmk, field1_packWord, field2_packWord]
  · rw [hlen, Nat.add_sub_cancel, List.drop_length]

end Sys2Proof

namespace Sys2Proof.Machine

/-! ### The shared rules -/

/-- R123: an instruction of more than one word whose second word holds no value faults in the fetch. -/
theorem step_of_second_word_unwritten {s : State} {w0 : Word} {op : Opcode} (hs : s.status = .running)
    (hw : s.mem.read s.pc = some w0) (hop : decodeFirst w0 = .ok op) (hlen : 2 ≤ op.words)
    (hn : s.mem.read (s.pc + 1) = none) : step s = .next (faultedAs (.uninitializedMemory (s.pc + 1)) s) := by
  have hfirst : s.pc + 1 + BitVec.ofNat 16 0 = s.pc + 1 := BitVec.add_zero _
  have hblock : readBlock (s.pc + 1) (op.words - 1) s = .error (.uninitializedMemory (s.pc + 1)) :=
    readBlock_eq_error.mpr ⟨0, by omega, by rwa [hfirst], nofun, by rw [hfirst]⟩
  exact step_unfetched hs (fetch_eq_error.mpr (.inr (.inr ⟨w0, op, hw, hop, hblock⟩)))

/-- An attempt that begins with the effective address goes on from it. -/
theorem commit_effectiveAddress_of_indexHolds {s : State} {x : RegField} {k : Word} (adr : Word)
    (h : IndexHolds s x k) (f : Word → Except FaultCause State) :
    commit s (effectiveAddress x adr s >>= f) = commit s (f (adr + k)) := by
  rw [effectiveAddress_of_indexHolds adr h, bind_ok]

/-- An attempt that begins with the effective address ends in the index field's fault, before all others (R129). -/
theorem commit_effectiveAddress_of_indexRaises {s : State} {x : RegField} {c : FaultCause} (adr : Word)
    (h : IndexRaises s x c) (f : Word → Except FaultCause State) :
    commit s (effectiveAddress x adr s >>= f) = .next (faultedAs c s) := by
  rw [effectiveAddress_eq_error.mpr h, bind_error, commit_error]

theorem commit_writeResult_of_named {s : State} {r1 : RegField} {i : Fin 8} (h : r1.toNat = i.val) (v : Word)
    (n : Nat) :
    commit s (writeResult r1 v n s) = .next
      { s with pc := s.pc + BitVec.ofNat 16 n, gr := s.gr.set i ⟨v, true⟩, flags := wordFlags v } := by
  rw [writeResult_eq_ok.mpr ⟨i, h, rfl⟩, commit_ok]

theorem commit_writeResult_of_undefined {s : State} {r1 : RegField} (h : 8 ≤ r1.toNat) (v : Word) (n : Nat) :
    commit s (writeResult r1 v n s) = .next (faultedAs (.undefinedRegister r1) s) := by
  rw [writeResult_eq_error.mpr ⟨h, rfl⟩, commit_error]

/-! ### The attempt each instruction commits -/

/-- R150: a load is a memory read, and its write-back is the one ALU results have. -/
theorem exec_ldMem (r1 : RegField) (adr : Word) (x : RegField) (s : State) :
    exec (.ldMem r1 adr x) s =
      commit s (effectiveAddress x adr s >>= fun ea => memRead ea s >>= fun v => writeResult r1 v 2 s) := rfl

/-- R151. -/
theorem exec_st (r1 : RegField) (adr : Word) (x : RegField) (s : State) :
    exec (.st r1 adr x) s =
      commit s (effectiveAddress x adr s >>= fun ea => readReg r1 s >>= fun v => .ok (advance 2 (memWrite ea v s))) :=
  rfl

/-- R152. -/
theorem exec_lad (r1 : RegField) (adr : Word) (x : RegField) (s : State) :
    exec (.lad r1 adr x) s =
      commit s (effectiveAddress x adr s >>= fun ea => writeReg r1 ea s >>= fun t => .ok (advance 2 t)) := rfl

/-- R153: a register copy differs from a load only in where the word comes from. -/
theorem exec_ldReg (r1 r2 : RegField) (s : State) :
    exec (.ldReg r1 r2) s = commit s (readReg r2 s >>= fun v => writeResult r1 v 1 s) := rfl

/-- A load whose address holds a word has only its write-back left to do. -/
theorem exec_ldMem_of_read {s : State} {x : RegField} {adr k v : Word} (r1 : RegField) (hk : IndexHolds s x k)
    (hv : s.mem.read (adr + k) = some v) : exec (.ldMem r1 adr x) s = commit s (writeResult r1 v 2 s) := by
  rw [exec_ldMem, commit_effectiveAddress_of_indexHolds adr hk, memRead_eq_ok.mpr hv, bind_ok]

/-- A register copy whose source holds a word has only its write-back left to do. -/
theorem exec_ldReg_of_regHolds {s : State} {r2 : RegField} {v : Word} (r1 : RegField) (hv : RegHolds s r2 v) :
    exec (.ldReg r1 r2) s = commit s (writeResult r1 v 1 s) := by
  rw [exec_ldReg, readReg_eq_ok.mpr hv, bind_ok]

/-! ### The obligations -/

/-- Settles O12, from the attempt's lines in turn: the effective address, the read, the write-back. -/
theorem loadFromMemory : Obligations.LoadFromMemory := by
  unfold Obligations.LoadFromMemory
  intro s r1 x adr
  refine ⟨?decodes, fun i k v hi hk hv => ?result, fun c hc => ?index, fun k hk hn => ?memory,
    fun k v hk hv h8 => ?register, fun hs hw hn => ?fetch⟩
  case decodes => exact decode_packWord (op := .ldMem) (mk := (.ldMem · adr ·)) nofun rfl (fun _ => rfl) r1 x
  case result =>
    rw [exec_ldMem_of_read r1 hk hv]
    exact commit_writeResult_of_named hi v 2
  case index => rw [exec_ldMem, commit_effectiveAddress_of_indexRaises adr hc]
  case memory =>
    rw [exec_ldMem, commit_effectiveAddress_of_indexHolds adr hk, memRead_eq_error.mpr ⟨hn, rfl⟩, bind_error,
      commit_error]
  case register => rw [exec_ldMem_of_read r1 hk hv, commit_writeResult_of_undefined h8]
  case fetch => exact step_of_second_word_unwritten hs hw (decodeFirst_packWord (op := .ldMem) nofun r1 x) le_rfl hn

/-- Settles O13, from the attempt's lines in turn: the effective address, the read of r1, the write. -/
theorem storeToMemory : Obligations.StoreToMemory := by
  unfold Obligations.StoreToMemory
  intro s r1 x adr
  refine ⟨?decodes, fun k v hk hv => ⟨?result, fun b => Memory.read_write s.mem (adr + k) b v⟩,
    fun c hc => ?index, fun k c hk hc => ?register, fun hs hw hn => ?fetch⟩
  case decodes => exact decode_packWord (op := .st) (mk := (.st · adr ·)) nofun rfl (fun _ => rfl) r1 x
  case result =>
    rw [exec_st, commit_effectiveAddress_of_indexHolds adr hk, readReg_eq_ok.mpr hv]
    rfl
  case index => rw [exec_st, commit_effectiveAddress_of_indexRaises adr hc]
  case register =>
    rw [exec_st, commit_effectiveAddress_of_indexHolds adr hk, readReg_eq_error.mpr hc, bind_error, commit_error]
  case fetch => exact step_of_second_word_unwritten hs hw (decodeFirst_packWord (op := .st) nofun r1 x) le_rfl hn

/-- Settles O14, from the attempt's lines in turn: the effective address, the write of r1. -/
theorem loadAddress : Obligations.LoadAddress := by
  unfold Obligations.LoadAddress
  intro s r1 x adr
  refine ⟨?decodes, fun i k hi hk => ?result, fun c hc => ?index, fun k hk h8 => ?register, fun hs hw hn => ?fetch⟩
  case decodes => exact decode_packWord (op := .lad) (mk := (.lad · adr ·)) nofun rfl (fun _ => rfl) r1 x
  case result =>
    rw [exec_lad, commit_effectiveAddress_of_indexHolds adr hk, writeReg_eq_ok.mpr ⟨i, hi, rfl⟩]
    rfl
  case index => rw [exec_lad, commit_effectiveAddress_of_indexRaises adr hc]
  case register =>
    rw [exec_lad, commit_effectiveAddress_of_indexHolds adr hk, writeReg_eq_error.mpr ⟨h8, rfl⟩, bind_error,
      commit_error]
  case fetch => exact step_of_second_word_unwritten hs hw (decodeFirst_packWord (op := .lad) nofun r1 x) le_rfl hn

/-- Settles O15, from the attempt's lines in turn: the read of r2, then the write-back, which checks r1. -/
theorem loadFromRegister : Obligations.LoadFromRegister := by
  unfold Obligations.LoadFromRegister
  intro s r1 r2
  refine ⟨?decodes, fun i v hi hv => ?result, fun c hc => ?source, fun v hv h8 => ?register⟩
  case decodes => exact decode_packWord (op := .ldReg) (mk := .ldReg) nofun rfl (fun _ => rfl) r1 r2
  case result =>
    rw [exec_ldReg_of_regHolds r1 hv]
    exact commit_writeResult_of_named hi v 1
  case source => rw [exec_ldReg, readReg_eq_error.mpr hc, bind_error, commit_error]
  case register => rw [exec_ldReg_of_regHolds r1 hv, commit_writeResult_of_undefined h8]

end Sys2Proof.Machine
end

section
/-!
PROOFS. The arithmetic, logic and compare family (R170 to R175), after the rules of its two formats: the attempt each
instruction commits, what that attempt does once its operands are read, and the faults of reading them, which the
instructions of one format share.
-/

namespace Sys2Proof.Machine

/-! ### The attempt each instruction commits -/

/-- R170: the exact sum kept in 16 bits is the sum of words. -/
theorem exec_adda (r1 : RegField) (adr : Word) (x : RegField) (s : State) :
    exec (.adda r1 adr x) s =
      commit s (memOperands r1 adr x s >>= fun ops => writeResult r1 (ops.1 + ops.2) 2 s) := by
  simp only [← trunc16_toNat_add]
  rfl

/-- R171: the exact difference kept in 16 bits is the difference of words. -/
theorem exec_suba (r1 r2 : RegField) (s : State) :
    exec (.suba r1 r2) s = commit s (regOperands r1 r2 s >>= fun ops => writeResult r1 (ops.1 - ops.2) 1 s) := by
  simp only [← trunc16_toNat_sub]
  rfl

/-- R172. -/
theorem exec_andMem (r1 : RegField) (adr : Word) (x : RegField) (s : State) :
    exec (.andMem r1 adr x) s =
      commit s (memOperands r1 adr x s >>= fun ops => writeResult r1 (ops.1 &&& ops.2) 2 s) := rfl

/-- R173. -/
theorem exec_andReg (r1 r2 : RegField) (s : State) :
    exec (.andReg r1 r2) s = commit s (regOperands r1 r2 s >>= fun ops => writeResult r1 (ops.1 &&& ops.2) 1 s) := rfl

/-- R174: the flags of the exact difference are those of the signed order, for every pair of words. -/
theorem exec_cpaMem (r1 : RegField) (adr : Word) (x : RegField) (s : State) :
    exec (.cpaMem r1 adr x) s =
      commit s (memOperands r1 adr x s >>= fun ops => .ok (advance 2 (s.putFlags (orderFlags ops.1 ops.2)))) := by
  simp only [← flagsOf_compareWords]
  rfl

/-- R175: as `exec_cpaMem`, on two registers. -/
theorem exec_cpaReg (r1 r2 : RegField) (s : State) :
    exec (.cpaReg r1 r2) s =
      commit s (regOperands r1 r2 s >>= fun ops => .ok (advance 1 (s.putFlags (orderFlags ops.1 ops.2)))) := by
  simp only [← flagsOf_compareWords]
  rfl

/-! ### r1 and the memory operand -/

/-- An attempt whose first part raises ends in that fault. -/
theorem commit_bind_of_error {α : Type} {s : State} {ops : Except FaultCause α} {c : FaultCause}
    (h : ops = .error c) (f : α → Except FaultCause State) : commit s (ops >>= f) = .next (faultedAs c s) := by
  rw [h, bind_error, commit_error]

/-- An attempt whose memory operands hold words goes on from them. -/
theorem commit_memOperands_of_held {s : State} {r1 x : RegField} {adr k a b : Word} (hk : IndexHolds s x k)
    (ha : RegHolds s r1 a) (hb : s.mem.read (adr + k) = some b) (f : Word × Word → Except FaultCause State) :
    commit s (memOperands r1 adr x s >>= f) = commit s (f (a, b)) := by
  rw [memOperands_eq_ok.mpr ⟨k, hk, ha, hb⟩, bind_ok]

/-- The faults of an instruction on r1 and the memory operand, in the order of R129 after the fetch, which stands
last: the index field, r1, the word at the effective address. -/
theorem memoryForm_faults {op : Opcode} {i : Instr} {s : State} {r1 x : RegField} {adr : Word}
    {f : Word × Word → Except FaultCause State} (hop : op ≠ .svc) (hlen : 2 ≤ op.words)
    (hexec : exec i s = commit s (memOperands r1 adr x s >>= f)) :
    (∀ c, IndexRaises s x c → exec i s = .next (faultedAs c s)) ∧
    (∀ k c, IndexHolds s x k → RegReadRaises s r1 c → exec i s = .next (faultedAs c s)) ∧
    (∀ k a, IndexHolds s x k → RegHolds s r1 a → s.mem.read (adr + k) = none →
      exec i s = .next (faultedAs (.uninitializedMemory (adr + k)) s)) ∧
    (s.status = .running → s.mem.read s.pc = some (packWord op r1 x) → s.mem.read (s.pc + 1) = none →
      step s = .next (faultedAs (.uninitializedMemory (s.pc + 1)) s)) := by
  rw [hexec]
  refine ⟨fun c hc => ?index, fun k c hk hc => ?register, fun k a hk ha hn => ?memory, fun hs hw hn => ?fetch⟩
  case index => exact commit_bind_of_error (memOperands_eq_error.mpr (.inl hc)) f
  case register => exact commit_bind_of_error (memOperands_eq_error.mpr (.inr (.inl ⟨k, hk, hc⟩))) f
  case memory => exact commit_bind_of_error (memOperands_eq_error.mpr (.inr (.inr ⟨k, a, hk, ha, hn, rfl⟩))) f
  case fetch => exact step_of_second_word_unwritten hs hw (decodeFirst_packWord hop r1 x) hlen hn

/-! ### r1 and r2 -/

/-- An attempt whose register operands hold words goes on from them. -/
theorem commit_regOperands_of_held {s : State} {r1 r2 : RegField} {a b : Word} (ha : RegHolds s r1 a)
    (hb : RegHolds s r2 b) (f : Word × Word → Except FaultCause State) :
    commit s (regOperands r1 r2 s >>= f) = commit s (f (a, b)) := by
  rw [regOperands_eq_ok.mpr ⟨ha, hb⟩, bind_ok]

/-- The faults of an instruction on r1 and r2, in that order (R129). -/
theorem registerForm_faults {i : Instr} {s : State} {r1 r2 : RegField} {f : Word × Word → Except FaultCause State}
    (hexec : exec i s = commit s (regOperands r1 r2 s >>= f)) :
    (∀ c, RegReadRaises s r1 c → exec i s = .next (faultedAs c s)) ∧
    (∀ a c, RegHolds s r1 a → RegReadRaises s r2 c → exec i s = .next (faultedAs c s)) := by
  rw [hexec]
  refine ⟨fun c hc => ?first, fun a c ha hc => ?second⟩
  case first => exact commit_bind_of_error (regOperands_eq_error.mpr (.inl hc)) f
  case second => exact commit_bind_of_error (regOperands_eq_error.mpr (.inr ⟨a, ha, hc⟩)) f

/-! ### The obligations -/

/-- Settles O16: the operands are read as in every memory form, then the sum is written back. -/
theorem addFromMemory : Obligations.AddFromMemory := by
  unfold Obligations.AddFromMemory
  intro s r1 x adr
  refine ⟨?decodes, fun i k a b hi hk ha hb => ?result, ?faults⟩
  case decodes => exact decode_packWord (op := .adda) (mk := (.adda · adr ·)) nofun rfl (fun _ => rfl) r1 x
  case result =>
    rw [exec_adda, commit_memOperands_of_held hk ⟨i, hi, ha⟩ hb]
    exact commit_writeResult_of_named hi (a + b) 2
  case faults => exact memoryForm_faults (op := .adda) nofun le_rfl (exec_adda r1 adr x s)

/-- Settles O17: the operands are read as in every register form, then the difference is written back. -/
theorem subtractRegister : Obligations.SubtractRegister := by
  unfold Obligations.SubtractRegister
  intro s r1 r2
  refine ⟨?decodes, fun i a b hi ha hb => ?result, ?faults⟩
  case decodes => exact decode_packWord (op := .suba) (mk := .suba) nofun rfl (fun _ => rfl) r1 r2
  case result =>
    rw [exec_suba, commit_regOperands_of_held ⟨i, hi, ha⟩ hb]
    exact commit_writeResult_of_named hi (a - b) 1
  case faults => exact registerForm_faults (exec_suba r1 r2 s)

/-- Settles O18: the operands are read as in every memory form, then their bitwise AND is written back. -/
theorem andFromMemory : Obligations.AndFromMemory := by
  unfold Obligations.AndFromMemory
  intro s r1 x adr
  refine ⟨?decodes, fun i k a b hi hk ha hb => ?result, ?faults⟩
  case decodes => exact decode_packWord (op := .andMem) (mk := (.andMem · adr ·)) nofun rfl (fun _ => rfl) r1 x
  case result =>
    rw [exec_andMem, commit_memOperands_of_held hk ⟨i, hi, ha⟩ hb]
    exact commit_writeResult_of_named hi (a &&& b) 2
  case faults => exact memoryForm_faults (op := .andMem) nofun le_rfl (exec_andMem r1 adr x s)

/-- Settles O19: the operands are read as in every register form, then their bitwise AND is written back. -/
theorem andRegister : Obligations.AndRegister := by
  unfold Obligations.AndRegister
  intro s r1 r2
  refine ⟨?decodes, fun i a b hi ha hb => ?result, ?faults⟩
  case decodes => exact decode_packWord (op := .andReg) (mk := .andReg) nofun rfl (fun _ => rfl) r1 r2
  case result =>
    rw [exec_andReg, commit_regOperands_of_held ⟨i, hi, ha⟩ hb]
    exact commit_writeResult_of_named hi (a &&& b) 1
  case faults => exact registerForm_faults (exec_andReg r1 r2 s)

/-- Settles O20: the operands are read as in every memory form, then only flags and PC are written. -/
theorem compareWithMemory : Obligations.CompareWithMemory := by
  unfold Obligations.CompareWithMemory
  intro s r1 x adr
  refine ⟨?decodes, fun k a b hk ha hb => ?result, ?faults⟩
  case decodes => exact decode_packWord (op := .cpaMem) (mk := (.cpaMem · adr ·)) nofun rfl (fun _ => rfl) r1 x
  case result =>
    rw [exec_cpaMem, commit_memOperands_of_held hk ha hb]
    rfl
  case faults => exact memoryForm_faults (op := .cpaMem) nofun le_rfl (exec_cpaMem r1 adr x s)

/-- Settles O21: the operands are read as in every register form, then only flags and PC are written. -/
theorem compareRegisters : Obligations.CompareRegisters := by
  unfold Obligations.CompareRegisters
  intro s r1 r2
  refine ⟨?decodes, fun a b ha hb => ?result, ?faults⟩
  case decodes => exact decode_packWord (op := .cpaReg) (mk := .cpaReg) nofun rfl (fun _ => rfl) r1 r2
  case result =>
    rw [exec_cpaReg, commit_regOperands_of_held ha hb]
    rfl
  case faults => exact registerForm_faults (exec_cpaReg r1 r2 s)

end Sys2Proof.Machine
end

section
/-!
PROOFS. The control family (R190 to R193, R198). The four jumps are one attempt that differs only in its condition:
the target first, index register and all, then the condition, then PC. RET has no operand to read.
-/

namespace Sys2Proof

/-- The opcode byte of a word made of a high and a low byte is the high one (R80). -/
theorem opcodeOf_append (b : OpByte) (low : BitVec 8) : opcodeOf (b ++ low) = b :=
  BitVec.extractLsb'_append_eq_left

/-- R87, R198: RET is fixed by its high byte. -/
theorem decodeFirst_ret (low : BitVec 8) : decodeFirst (0x81#8 ++ low) = .ok .ret :=
  decodeFirst_eq_ok.mpr ⟨opcodeOf_append _ low, nofun⟩

end Sys2Proof

namespace Sys2Proof.Machine

/-! ### The attempt a jump commits -/

/-- What every jump attempts: compute the target, read the condition, then go to the target or past the jump. -/
def jumpAttempt (adr : Word) (x : RegField) (cond : Except FaultCause Bool) (s : State) : Except FaultCause State :=
  effectiveAddress x adr s >>= fun t => cond >>= fun taken => .ok (jumpIf taken t s)

/-- The condition of JPL: SF is read before ZF, and both must be 0 (R193). -/
def readPlus (s : State) : Except FaultCause Bool := readSf s >>= fun n => readZf s >>= fun z => .ok (!n && !z)

/-- R190: the condition is SF. -/
theorem exec_jmi (adr : Word) (x : RegField) (s : State) :
    exec (.jmi adr x) s = commit s (jumpAttempt adr x (readSf s) s) := rfl

/-- R191: the condition is ZF. -/
theorem exec_jze (adr : Word) (x : RegField) (s : State) :
    exec (.jze adr x) s = commit s (jumpAttempt adr x (readZf s) s) := rfl

/-- R192: the condition holds and reads no flag. -/
theorem exec_jump (adr : Word) (x : RegField) (s : State) :
    exec (.jump adr x) s = commit s (jumpAttempt adr x (.ok true) s) := rfl

/-- R193: the condition reads both flags. -/
theorem exec_jpl (adr : Word) (x : RegField) (s : State) :
    exec (.jpl adr x) s = commit s (jumpAttempt adr x (readPlus s) s) := by
  simp only [jumpAttempt, readPlus, bind_assoc, bind_ok]
  rfl

/-- A jump whose index field and condition can be read ends with PC at the target or past the jump. -/
theorem commit_jumpAttempt_of_ok {s : State} {x : RegField} {k : Word} {cond : Except FaultCause Bool} {taken : Bool}
    (adr : Word) (hk : IndexHolds s x k) (hcond : cond = .ok taken) :
    commit s (jumpAttempt adr x cond s) = .next { s with pc := if taken then adr + k else s.pc + 2 } := by
  rw [jumpAttempt, commit_effectiveAddress_of_indexHolds adr hk, hcond, bind_ok, commit_ok, jumpIf_eq]

/-- A jump whose condition cannot be read ends in that fault once the index field is passed. -/
theorem commit_jumpAttempt_of_error {s : State} {x : RegField} {k : Word} {cond : Except FaultCause Bool}
    {c : FaultCause} (adr : Word) (hk : IndexHolds s x k) (hcond : cond = .error c) :
    commit s (jumpAttempt adr x cond s) = .next (faultedAs c s) := by
  rw [jumpAttempt, commit_effectiveAddress_of_indexHolds adr hk]
  exact commit_bind_of_error hcond _

/-- A jump whose index field cannot be read ends in that fault, whatever its condition (R129). -/
theorem commit_jumpAttempt_of_indexRaises {s : State} {x : RegField} {c : FaultCause} (adr : Word)
    (cond : Except FaultCause Bool) (hc : IndexRaises s x c) :
    commit s (jumpAttempt adr x cond s) = .next (faultedAs c s) :=
  commit_effectiveAddress_of_indexRaises adr hc _

/-! ### The condition of JPL -/

theorem readPlus_of_written {s : State} {n z : Bool} (hn : s.flags.sf = ⟨n, true⟩) (hz : s.flags.zf = ⟨z, true⟩) :
    readPlus s = .ok (!n && !z) := by
  rw [readPlus, readSf_eq_ok.mpr hn, bind_ok, readZf_eq_ok.mpr hz, bind_ok]

theorem readPlus_of_sf_unwritten {s : State} (h : s.flags.sf.written = false) :
    readPlus s = .error (.unwrittenRegister .sf) := by
  rw [readPlus, readSf_eq_error.mpr ⟨h, rfl⟩, bind_error]

theorem readPlus_of_zf_unwritten {s : State} (hsf : s.flags.sf.written = true) (hzf : s.flags.zf.written = false) :
    readPlus s = .error (.unwrittenRegister .zf) := by
  have hn : readSf s = .ok s.flags.sf.value := readSf_eq_ok.mpr (by rw [← hsf])
  rw [readPlus, hn, bind_ok, readZf_eq_error.mpr ⟨hzf, rfl⟩, bind_error]

/-! ### RET -/

/-- R198. -/
theorem exec_ret (s : State) : exec .ret s = .next { s with status := .halted } := rfl

/-- A word with RET's high byte at PC is fetched whole: there is no operand word to miss. -/
theorem fetch_ret {s : State} {low : BitVec 8} (hw : s.mem.read s.pc = some (0x81#8 ++ low)) : fetch s = .ok .ret :=
  fetch_eq_ok.mpr ⟨_, .ret, [], hw, decodeFirst_ret low, rfl, rfl⟩

/-! ### The obligations -/

/-- Settles O22: a jump on what SF holds. -/
theorem jumpOnMinus : Obligations.JumpOnMinus := by
  unfold Obligations.JumpOnMinus
  intro s f1 x adr
  rw [exec_jmi]
  refine ⟨?decodes, fun k b hk hb => ?result, fun c hc => ?index, fun k hk hsf => ?flag, fun hs hw hn => ?fetch⟩
  case decodes => exact decode_packWord (op := .jmi) (mk := fun _ => .jmi adr) nofun rfl (fun _ => rfl) f1 x
  case result => exact commit_jumpAttempt_of_ok adr hk (readSf_eq_ok.mpr hb)
  case index => exact commit_jumpAttempt_of_indexRaises adr _ hc
  case flag => exact commit_jumpAttempt_of_error adr hk (readSf_eq_error.mpr ⟨hsf, rfl⟩)
  case fetch => exact step_of_second_word_unwritten hs hw (decodeFirst_packWord (op := .jmi) nofun f1 x) le_rfl hn

/-- Settles O23: a jump on what ZF holds. -/
theorem jumpOnZero : Obligations.JumpOnZero := by
  unfold Obligations.JumpOnZero
  intro s f1 x adr
  rw [exec_jze]
  refine ⟨?decodes, fun k b hk hb => ?result, fun c hc => ?index, fun k hk hzf => ?flag, fun hs hw hn => ?fetch⟩
  case decodes => exact decode_packWord (op := .jze) (mk := fun _ => .jze adr) nofun rfl (fun _ => rfl) f1 x
  case result => exact commit_jumpAttempt_of_ok adr hk (readZf_eq_ok.mpr hb)
  case index => exact commit_jumpAttempt_of_indexRaises adr _ hc
  case flag => exact commit_jumpAttempt_of_error adr hk (readZf_eq_error.mpr ⟨hzf, rfl⟩)
  case fetch => exact step_of_second_word_unwritten hs hw (decodeFirst_packWord (op := .jze) nofun f1 x) le_rfl hn

/-- Settles O24: a jump whose condition cannot fail, so that only the index field and the fetch can. -/
theorem jumpAlways : Obligations.JumpAlways := by
  unfold Obligations.JumpAlways
  intro s f1 x adr
  rw [exec_jump]
  refine ⟨?decodes, fun k hk => ?result, fun c hc => ?index, fun hs hw hn => ?fetch⟩
  case decodes => exact decode_packWord (op := .jump) (mk := fun _ => .jump adr) nofun rfl (fun _ => rfl) f1 x
  case result => exact commit_jumpAttempt_of_ok adr hk rfl
  case index => exact commit_jumpAttempt_of_indexRaises adr _ hc
  case fetch => exact step_of_second_word_unwritten hs hw (decodeFirst_packWord (op := .jump) nofun f1 x) le_rfl hn

/-- Settles O25: a jump on both flags, read SF first. -/
theorem jumpOnPlus : Obligations.JumpOnPlus := by
  unfold Obligations.JumpOnPlus
  intro s f1 x adr
  rw [exec_jpl]
  refine ⟨?decodes, fun k n z hk hn hz => ?result, fun c hc => ?index, fun k hk hsf => ?sign,
    fun k hk hsf hzf => ?zero, fun hs hw hn => ?fetch⟩
  case decodes => exact decode_packWord (op := .jpl) (mk := fun _ => .jpl adr) nofun rfl (fun _ => rfl) f1 x
  case result =>
    have hplus : (!n && !z) = true ↔ n = false ∧ z = false := by simp
    rw [commit_jumpAttempt_of_ok adr hk (readPlus_of_written hn hz)]
    simp only [hplus]
  case index => exact commit_jumpAttempt_of_indexRaises adr _ hc
  case sign => exact commit_jumpAttempt_of_error adr hk (readPlus_of_sf_unwritten hsf)
  case zero => exact commit_jumpAttempt_of_error adr hk (readPlus_of_zf_unwritten hsf hzf)
  case fetch => exact step_of_second_word_unwritten hs hw (decodeFirst_packWord (op := .jpl) nofun f1 x) le_rfl hn

/-- Settles O26: RET is fetched and run whatever its low byte, and the state it leaves is stopped. -/
theorem returnHalts : Obligations.ReturnHalts := by
  unfold Obligations.ReturnHalts
  intro s low
  refine ⟨?decodes, exec_ret s, fun hs hw => ⟨?halts, ?stays⟩⟩
  case decodes => exact decode_eq_ok.mpr ⟨_, [], .ret, rfl, decodeFirst_ret low, le_rfl, rfl, rfl⟩
  case halts => rw [step_fetched hs (fetch_ret hw), exec_ret]
  case stays => exact step_stopped nofun

end Sys2Proof.Machine
end

section
/-!
PROOFS. The supervisor-call family (R210). The call is one attempt of three parts: the length word, its check, the
block it counts. Its fetch is the only one of three words.
-/

namespace Sys2Proof.Machine

/-! ### The fetch of a third word -/

/-- R123: an instruction of three words of which only the third holds no value faults in the fetch, at that word. -/
theorem step_of_third_word_unwritten {s : State} {w0 : Word} {op : Opcode} (hs : s.status = .running)
    (hw : s.mem.read s.pc = some w0) (hop : decodeFirst w0 = .ok op) (hlen : op.words = 3)
    (h1 : s.mem.read (s.pc + 1) ≠ none) (h2 : s.mem.read (s.pc + 2) = none) :
    step s = .next (faultedAs (.uninitializedMemory (s.pc + 2)) s) := by
  have hsecond : s.pc + 1 + BitVec.ofNat 16 0 = s.pc + 1 := BitVec.add_zero _
  have hthird : s.pc + 1 + BitVec.ofNat 16 1 = s.pc + 2 := next_offset s.pc 1
  have hwritten : ∀ j, j < 1 → s.mem.read (s.pc + 1 + BitVec.ofNat 16 j) ≠ none := by
    intro j hj
    rwa [Nat.lt_one_iff.mp hj, hsecond]
  have hblock : readBlock (s.pc + 1) (op.words - 1) s = .error (.uninitializedMemory (s.pc + 2)) :=
    readBlock_eq_error.mpr ⟨1, by omega, by rwa [hthird], hwritten, by rw [hthird]⟩
  exact step_unfetched hs (fetch_eq_error.mpr (.inr (.inr ⟨w0, op, hw, hop, hblock⟩)))

/-! ### The attempt of the supervisor call -/

/-- R210. -/
theorem exec_svc (dp lp : Word) (s : State) :
    exec (.svc dp lp) s =
      commit s (memRead lp s >>= fun lw => outputLength lw >>= fun n => readBlock dp n s >>= fun ws =>
        .ok (advance 3 (output ws s))) := rfl

/-- A call whose length pointer holds a word goes on to check it. -/
theorem exec_svc_of_read {s : State} {lp lw : Word} (dp : Word) (hl : s.mem.read lp = some lw) :
    exec (.svc dp lp) s =
      commit s (outputLength lw >>= fun n => readBlock dp n s >>= fun ws => .ok (advance 3 (output ws s))) := by
  rw [exec_svc, memRead_eq_ok.mpr hl, bind_ok]

/-- A call whose length word is no negative number has only the block it counts left to read and put out. -/
theorem exec_svc_of_length {s : State} {lp lw : Word} (dp : Word) (hl : s.mem.read lp = some lw)
    (hlt : lw.toNat < 0x8000) :
    exec (.svc dp lp) s = commit s (readBlock dp lw.toNat s >>= fun ws => .ok (advance 3 (output ws s))) := by
  rw [exec_svc_of_read dp hl, outputLength_eq_ok.mpr ⟨hlt, rfl⟩, bind_ok]

/-! ### The obligation -/

/-- Settles O27, from the attempt's parts in turn: the length word, its check, the block. The encoding and the other
first words with opcode 0xFF are those of O5. -/
theorem supervisorOutput : Obligations.SupervisorOutput := by
  unfold Obligations.SupervisorOutput
  intro s dp lp
  obtain ⟨hother, -, hdecode⟩ := otherSvcWordsFault
  refine ⟨hdecode dp lp, fun lw ws hl hlt hlen hws => ?result, fun hn => ?pointer, fun lw hl hge => ?length,
    fun lw j hl hlt hj hwritten hn => ?data, hother s,
    fun hs hw hn => ?second, fun hs hw h1 hn => ?third⟩
  case result =>
    rw [exec_svc_of_length dp hl hlt, readBlock_eq_ok.mpr ⟨hlen, hws⟩]
    rfl
  case pointer =>
    rw [exec_svc]
    exact commit_bind_of_error (memRead_eq_error.mpr ⟨hn, rfl⟩) _
  case length =>
    rw [exec_svc_of_read dp hl]
    exact commit_bind_of_error (outputLength_eq_error.mpr ⟨hge, rfl⟩) _
  case data =>
    rw [exec_svc_of_length dp hl hlt]
    exact commit_bind_of_error (readBlock_eq_error.mpr ⟨j, hj, hn, hwritten, rfl⟩) _
  case second => exact step_of_second_word_unwritten hs hw decodeFirst_svc (by decide) hn
  case third => exact step_of_third_word_unwritten hs hw decodeFirst_svc rfl h1 hn

end Sys2Proof.Machine
end

section
/-!
PROOFS. The exceptions family (R238, R240). A running step that ends in a fault has gone through the fault entry, with
a cause of the unit's own.
-/

namespace Sys2Proof.Machine

/-- Of the effects of an instruction on a running state, only the fault entry's leaves it faulted. -/
theorem Effect.eq_faultedAs_of_faulted {s t : State} {i : Instr} {r : FaultRecord} (h : Effect s i t)
    (hs : s.status = .running) (ht : t.status = .faulted r) :
    ∃ c, c ≠ .invalidExternalInput ∧ t = faultedAs c s := by
  cases h with
  | fault _ c hc => exact ⟨c, hc, rfl⟩
  | ret => cases ht
  | _ => exact absurd (hs.symm.trans ht) nofun

/-- R240: a running step that ends in a fault is the fault entry, made by the fetch or by the instruction. -/
theorem step_eq_faultedAs_of_faulted {s t : State} {r : FaultRecord} (hs : s.status = .running)
    (h : step s = .next t) (ht : t.status = .faulted r) :
    ∃ c, c ≠ .invalidExternalInput ∧ t = faultedAs c s := by
  rcases step_effect h with ⟨hstopped, -⟩ | ⟨-, i, -, heffect⟩ | ⟨-, c, hfetch, rfl⟩
  · exact absurd hs hstopped
  · exact heffect.eq_faultedAs_of_faulted hs ht
  · exact ⟨c, notExternal_fetch s c hfetch, rfl⟩

/-- The codes of the causes the unit raises are 1 to 6: 7 is reserved for the one it does not (R238). -/
theorem FaultCause.code_bounds {c : FaultCause} (h : c ≠ .invalidExternalInput) : 1 ≤ c.code ∧ c.code ≤ 6 := by
  cases c with
  | invalidExternalInput => exact absurd rfl h
  | _ => simp [FaultCause.code]

/-- Settles O10: the step is the fault entry, whose record is that of its cause. -/
theorem faultIsPrecise : Obligations.FaultIsPrecise := by
  unfold Obligations.FaultIsPrecise
  intro s t r hs h ht
  obtain ⟨c, -, rfl⟩ := step_eq_faultedAs_of_faulted hs h ht
  cases ht
  exact ⟨rfl, rfl, rfl⟩

/-- Settles O11: the cause of the fault entry is one of the unit's own, and those have the codes 1 to 6. -/
theorem invalidExternalInputUnreachable : Obligations.InvalidExternalInputUnreachable := by
  unfold Obligations.InvalidExternalInputUnreachable
  refine ⟨?_, rfl⟩
  intro s t r hs h ht
  obtain ⟨c, hc, rfl⟩ := step_eq_faultedAs_of_faulted hs h ht
  cases ht
  exact ⟨hc, FaultCause.code_bounds hc⟩

end Sys2Proof.Machine
end

section
/-!
PROOFS. The reset family (R260). What reset leaves of each part of the state, read off the state of R260.
-/

namespace Sys2Proof.Machine

/-- Every general register after reset is the one that holds no value (R37). -/
theorem hostReset_gr (entry : Word) (s : State) (i : Fin 8) : (hostReset entry s).gr[i] = emptyRegister :=
  Vector.getElem_replicate i.isLt

/-- The three flags after reset hold no value (R38). -/
theorem hostReset_flags (entry : Word) (s : State) : (hostReset entry s).flags = ⟨emptyFlag, emptyFlag, emptyFlag⟩ :=
  rfl

/-- No address holds a value after reset (R39). -/
theorem hostReset_mem_read (entry : Word) (s : State) (a : Word) : (hostReset entry s).mem.read a = none := rfl

/-- The default reset is the host's reset at 0x0000, from any state (R36). -/
theorem State.reset_eq_hostReset (s : State) : State.reset = hostReset 0x0000 s := rfl

/-- Settles O33: the registers and flags are the empty ones, the memory list is empty, and the PC, the status and the
history are those reset writes. -/
theorem resetLeaves : Obligations.ResetLeaves := by
  unfold Obligations.ResetLeaves
  intro entry s
  refine ⟨rfl, fun i => ?registers, ?of, ?sf, ?zf, rfl, rfl, hostReset_mem_read entry s, State.reset_eq_hostReset s⟩
  case registers => rw [hostReset_gr, emptyRegister]
  all_goals rw [hostReset_flags, emptyFlag]

end Sys2Proof.Machine
end

section
/-!
PROOFS. The decoder against the encoder (R80 to R91), both ways round, and what each reads and ignores of the words
it is given.
-/

namespace Sys2Proof

/-! ### What a row of the opcode map uses -/

/-- A row reads no operand word beyond its length (R81). -/
theorem Opcode.instr_congr {op : Opcode} {w0 a a' b b' : Word} (ha : 2 ≤ op.words → a = a')
    (hb : 3 ≤ op.words → b = b') : op.instr w0 a b = op.instr w0 a' b' := by
  cases op with
  | svc => rw [ha (by decide), hb le_rfl]
  | ldReg | suba | andReg | cpaReg | ret => rfl
  | _ => rw [Opcode.instr, ha le_rfl]; rfl

/-- An instruction is as long as its row (R81). -/
theorem Opcode.words_instr (op : Opcode) (w0 a b : Word) : (op.instr w0 a b).words = op.words := by
  cases op <;> rfl

theorem Opcode.words_le_three (op : Opcode) : op.words ≤ 3 := by
  cases op <;> decide

/-- The words after the first that `n` words are read from, when there are that many. -/
theorem take_eq_take_getD {n : Nat} {tl : List Word} (hn : n ≤ 2) (hlen : n ≤ tl.length) :
    tl.take n = [tl.getD 0 0, tl.getD 1 0].take n := by
  match n, tl with
  | 0, _ => rfl
  | 1, _ :: _ => rfl
  | 2, _ :: _ :: _ => rfl

/-! ### Decode of encode -/

/-- The words after an instruction have no part in its decoding. -/
theorem decode_append {ws r : List Word} {i : Instr} (h : decode ws = .ok (i, r)) (rest : List Word) :
    decode (ws ++ rest) = .ok (i, r ++ rest) := by
  obtain ⟨w0, tl, op, rfl, hop, hlen, rfl, rfl⟩ := Machine.decode_eq_ok.mp h
  refine Machine.decode_eq_ok.mpr ⟨w0, tl ++ rest, op, rfl, hop, ?length, ?instr, ?rest⟩
  case length =>
    rw [List.length_append]
    omega
  case instr =>
    refine Opcode.instr_congr (fun h2 => ?_) (fun h3 => ?_)
    · exact (List.getD_append tl rest 0 0 (by omega)).symm
    · exact (List.getD_append tl rest 0 1 (by omega)).symm
  case rest => exact (List.drop_append_of_le_length (by omega)).symm

/-- The words of an instruction, with none after them, decode to it: row by row (R82 to R85). -/
theorem decode_encode (i : Instr) : decode (encode i) = .ok (i, []) := by
  cases i with
  | ldMem r1 adr x => exact decode_packWord (op := .ldMem) (mk := (.ldMem · adr ·)) nofun rfl (fun _ => rfl) r1 x
  | st r1 adr x => exact decode_packWord (op := .st) (mk := (.st · adr ·)) nofun rfl (fun _ => rfl) r1 x
  | lad r1 adr x => exact decode_packWord (op := .lad) (mk := (.lad · adr ·)) nofun rfl (fun _ => rfl) r1 x
  | ldReg r1 r2 => exact decode_packWord (op := .ldReg) (mk := .ldReg) nofun rfl (fun _ => rfl) r1 r2
  | adda r1 adr x => exact decode_packWord (op := .adda) (mk := (.adda · adr ·)) nofun rfl (fun _ => rfl) r1 x
  | suba r1 r2 => exact decode_packWord (op := .suba) (mk := .suba) nofun rfl (fun _ => rfl) r1 r2
  | andMem r1 adr x => exact decode_packWord (op := .andMem) (mk := (.andMem · adr ·)) nofun rfl (fun _ => rfl) r1 x
  | andReg r1 r2 => exact decode_packWord (op := .andReg) (mk := .andReg) nofun rfl (fun _ => rfl) r1 r2
  | cpaMem r1 adr x => exact decode_packWord (op := .cpaMem) (mk := (.cpaMem · adr ·)) nofun rfl (fun _ => rfl) r1 x
  | cpaReg r1 r2 => exact decode_packWord (op := .cpaReg) (mk := .cpaReg) nofun rfl (fun _ => rfl) r1 r2
  | jmi adr x => exact decode_packWord (op := .jmi) (mk := fun _ => .jmi adr) nofun rfl (fun _ => rfl) 0 x
  | jze adr x => exact decode_packWord (op := .jze) (mk := fun _ => .jze adr) nofun rfl (fun _ => rfl) 0 x
  | jump adr x => exact decode_packWord (op := .jump) (mk := fun _ => .jump adr) nofun rfl (fun _ => rfl) 0 x
  | jpl adr x => exact decode_packWord (op := .jpl) (mk := fun _ => .jpl adr) nofun rfl (fun _ => rfl) 0 x
  | ret => exact decode_packWord (op := .ret) (mk := fun _ _ => .ret) nofun rfl (fun _ => rfl) 0 0
  | svc dp lp =>
    obtain ⟨-, -, hdecode⟩ := Machine.otherSvcWordsFault
    exact hdecode dp lp

/-- Settles O2: an instruction's own words decode to it, and the words after them have no part in that. -/
theorem decodeInvertsEncode : Obligations.DecodeInvertsEncode := by
  unfold Obligations.DecodeInvertsEncode
  exact fun i rest => decode_append (decode_encode i) rest

/-! ### Encode of decode -/

/-- A first word of a row is its two fields packed with the row's byte (R80). -/
theorem packWord_fields {op : Opcode} {w0 : Word} (h : opcodeOf w0 = op.byte) :
    packWord op (field1 w0) (field2 w0) = w0 := by
  rw [packWord, ← h]
  exact fields_eq w0

/-- Clearing bits of the two fields of a packed word is packing the cleared fields. -/
theorem packWord_and (op : Opcode) (f1 f2 m1 m2 : RegField) :
    packWord op f1 f2 &&& (0xFF#8 ++ m1 ++ m2) = packWord op (f1 &&& m1) (f2 &&& m2) := by
  have hbyte : op.byte &&& 0xFF#8 = op.byte := BitVec.and_allOnes
  rw [packWord, BitVec.and_append, BitVec.and_append, hbyte]
  rfl

/-- A jump's first word without the bits R87 ignores. -/
theorem and_jumpBits {op : Opcode} {w0 : Word} (h : opcodeOf w0 = op.byte) :
    w0 &&& 0xFF0F = packWord op 0 (field2 w0) := by
  have hmask := packWord_and op (field1 w0) (field2 w0) 0#4 (BitVec.allOnes 4)
  rw [packWord_fields h, BitVec.and_zero, BitVec.and_allOnes] at hmask
  exact hmask

/-- RET's first word without the bits R87 ignores. -/
theorem and_retBits {op : Opcode} {w0 : Word} (h : opcodeOf w0 = op.byte) : w0 &&& 0xFF00 = packWord op 0 0 := by
  have hmask := packWord_and op (field1 w0) (field2 w0) 0#4 0#4
  rw [packWord_fields h, BitVec.and_zero, BitVec.and_zero] at hmask
  exact hmask

/-- The encoding of what an accepted first word and its operand words spell: the first word's examined bits and the
operand words of the row's length. -/
theorem encode_instr {op : Opcode} {w0 : Word} (h : decodeFirst w0 = .ok op) (a b : Word) :
    encode (op.instr w0 a b) = (w0 &&& (op.instr w0 a b).examinedBits) :: [a, b].take (op.words - 1) := by
  obtain ⟨hbyte, hsvc⟩ := decodeFirst_eq_ok.mp h
  have hall : w0 &&& 0xFFFF = packWord op (field1 w0) (field2 w0) :=
    BitVec.and_allOnes.trans (packWord_fields hbyte).symm
  cases op with
  | jmi | jze | jump | jpl => exact congrArg (· :: [a]) (and_jumpBits hbyte).symm
  | ret => exact congrArg (· :: []) (and_retBits hbyte).symm
  | svc =>
    obtain ⟨h1, h2⟩ := hsvc rfl
    rw [h1, h2] at hall
    exact congrArg (· :: [a, b]) hall.symm
  | ldReg | suba | andReg | cpaReg => exact congrArg (· :: []) hall.symm
  | _ => exact congrArg (· :: [a]) hall.symm

/-- Settles O3: what decodes begins with an accepted first word and its row's operand words, and those are what the
encoder gives back. -/
theorem encodeInvertsDecode : Obligations.EncodeInvertsDecode := by
  unfold Obligations.EncodeInvertsDecode
  intro ws rest i h
  obtain ⟨w0, tl, op, rfl, hop, hlen, rfl, rfl⟩ := Machine.decode_eq_ok.mp h
  have hthree := op.words_le_three
  have htake : op.words - 1 ≤ tl.length := by omega
  refine ⟨w0, tl.take (op.words - 1), ?split, ?encode, ?length⟩
  case split => rw [List.take_append_drop]
  case encode => rw [encode_instr hop, take_eq_take_getD (by omega) htake]
  case length =>
    have hone : 1 ≤ op.words := by cases op <;> decide
    rw [op.words_instr, List.length_take_of_le htake]
    omega

/-! ### Fixed words, and bits that are ignored -/

/-- Settles O1, by evaluating the decoder on each of the words. -/
theorem opcodeMapWordsDecode : Obligations.OpcodeMapWordsDecode := by
  unfold Obligations.OpcodeMapWordsDecode
  exact ⟨rfl, rfl, rfl, rfl, rfl, rfl, rfl, rfl, rfl, rfl, rfl, rfl, rfl, rfl, rfl, rfl⟩

/-- Two first words of one row that give its instruction the same fields decode alike, whatever follows. -/
theorem decode_congr {op : Opcode} {w0 w0' : Word} (h : decodeFirst w0 = .ok op) (h' : decodeFirst w0' = .ok op)
    (hi : ∀ a b, op.instr w0 a b = op.instr w0' a b) (tl : List Word) : decode (w0 :: tl) = decode (w0' :: tl) := by
  simp only [decode, h, h', hi]

/-- The mask of the jumps leaves the opcode byte. -/
theorem opcodeOf_and_jumpBits (w0 : Word) : opcodeOf (w0 &&& 0xFF0F) = opcodeOf w0 := by
  rw [opcodeOf, BitVec.extractLsb'_and]
  exact BitVec.and_allOnes

/-- The mask of the jumps leaves the index field. -/
theorem field2_and_jumpBits (w0 : Word) : field2 (w0 &&& 0xFF0F) = field2 w0 := by
  rw [field2, BitVec.extractLsb'_and]
  exact BitVec.and_allOnes

/-- R87: two first words of one jump row `mk` that agree under the jumps' mask decode alike. -/
theorem decode_jump_congr {op : Opcode} {mk : Word → RegField → Instr} {w0 w0' : Word} (hop : op ≠ .svc)
    (hmk : ∀ w a b, op.instr w a b = mk a (field2 w)) (hbyte : opcodeOf w0 = op.byte)
    (hmask : w0 &&& 0xFF0F = w0' &&& 0xFF0F) (tl : List Word) : decode (w0 :: tl) = decode (w0' :: tl) := by
  have hbyte' : opcodeOf w0' = op.byte := by rw [← opcodeOf_and_jumpBits, ← hmask, opcodeOf_and_jumpBits, hbyte]
  have hindex : field2 w0 = field2 w0' := by rw [← field2_and_jumpBits, hmask, field2_and_jumpBits]
  refine decode_congr (decodeFirst_eq_ok.mpr ⟨hbyte, fun h => absurd h hop⟩)
    (decodeFirst_eq_ok.mpr ⟨hbyte', fun h => absurd h hop⟩) (fun a b => ?_) tl
  rw [hmk, hmk, hindex]

/-- Settles O6: the four jump rows read bits 3..0 alone of the low byte, RET none. -/
theorem ignoredBitsDoNotMatter : Obligations.IgnoredBitsDoNotMatter := by
  unfold Obligations.IgnoredBitsDoNotMatter
  rintro w0 w0' tl (⟨hjump, hmask⟩ | ⟨hret, hret'⟩)
  · simp only [List.mem_cons, List.not_mem_nil, or_false] at hjump
    rcases hjump with hbyte | hbyte | hbyte | hbyte
    · exact decode_jump_congr (op := .jmi) (mk := .jmi) nofun (fun _ _ _ => rfl) hbyte hmask tl
    · exact decode_jump_congr (op := .jze) (mk := .jze) nofun (fun _ _ _ => rfl) hbyte hmask tl
    · exact decode_jump_congr (op := .jump) (mk := .jump) nofun (fun _ _ _ => rfl) hbyte hmask tl
    · exact decode_jump_congr (op := .jpl) (mk := .jpl) nofun (fun _ _ _ => rfl) hbyte hmask tl
  · exact decode_congr (op := .ret) (decodeFirst_eq_ok.mpr ⟨hret, nofun⟩) (decodeFirst_eq_ok.mpr ⟨hret', nofun⟩)
      (fun _ _ => rfl) tl

end Sys2Proof

namespace Sys2Proof.Machine

/-! ### The fetch -/

/-- The words that stand in memory from PC on are fetched as they decode (R120 to R123). -/
theorem fetch_of_decode {s : State} {ws rest : List Word} {i : Instr}
    (hws : ∀ k, k < ws.length → s.mem.read (s.pc + BitVec.ofNat 16 k) = ws[k]?) (h : decode ws = .ok (i, rest)) :
    fetch s = .ok i := by
  obtain ⟨w0, tl, op, rfl, hop, hlen, rfl, -⟩ := decode_eq_ok.mp h
  have hthree := op.words_le_three
  have htake : op.words - 1 ≤ tl.length := by omega
  have hfirst : s.mem.read s.pc = some w0 := by simpa using hws 0 (Nat.succ_pos _)
  have hblock : readBlock (s.pc + 1) (op.words - 1) s = .ok (tl.take (op.words - 1)) := by
    refine readBlock_eq_ok.mpr ⟨List.length_take_of_le htake, fun k hk => ?_⟩
    rw [next_offset, hws (k + 1) (by rw [List.length_cons]; omega), List.getElem?_take_of_lt hk,
      List.getElem?_cons_succ]
  refine fetch_eq_ok.mpr ⟨w0, op, _, hfirst, hop, hblock, Opcode.instr_congr (fun h2 => ?_) fun h3 => ?_⟩
  · simp only [List.getD_eq_getElem?_getD, List.getElem?_take_of_lt (show 0 < op.words - 1 by omega)]
  · simp only [List.getD_eq_getElem?_getD, List.getElem?_take_of_lt (show 1 < op.words - 1 by omega)]

/-- Settles O7: the words at PC are fetched as they decode, and the step runs what is fetched. -/
theorem stepRunsDecodedInstruction : Obligations.StepRunsDecodedInstruction := by
  unfold Obligations.StepRunsDecodedInstruction
  exact fun s ws rest i hs hws h => step_fetched hs (fetch_of_decode hws h)

/-- Settles O9, from the fetch's faults in the order of R129: the first, the second, the third word. -/
theorem fetchOfUnwrittenWordFaults : Obligations.FetchOfUnwrittenWordFaults := by
  unfold Obligations.FetchOfUnwrittenWordFaults
  refine fun s hs => ⟨fun hn => ?first, fun w0 op hw hop => ⟨fun hlen hn => ?second, fun hlen h1 hn => ?third⟩⟩
  case first => exact step_unfetched hs (fetch_eq_error.mpr (.inl ⟨hn, rfl⟩))
  case second => exact step_of_second_word_unwritten hs hw hop hlen hn
  case third => exact step_of_third_word_unwritten hs hw hop hlen h1 hn

end Sys2Proof.Machine
end

section
/-!
PROOFS. What each part of the state can become in one instruction and in one step, and the frames and safety
statements that follow (R24, R26 to R28, R31, R32, R133).
-/

namespace Sys2Proof.Machine

/-! ### One lemma per part of the state -/

/-- The register field an instruction writes, if it writes one (R24). -/
def writtenField : Instr → Option RegField
  | .ldMem r1 _ _ => some r1
  | .lad r1 _ _ => some r1
  | .ldReg r1 _ => some r1
  | .adda r1 _ _ => some r1
  | .suba r1 _ => some r1
  | .andMem r1 _ _ => some r1
  | .andReg r1 _ => some r1
  | .st _ _ _ => none
  | .cpaMem _ _ _ => none
  | .cpaReg _ _ => none
  | .jmi _ _ => none
  | .jze _ _ => none
  | .jump _ _ => none
  | .jpl _ _ => none
  | .ret => none
  | .svc _ _ => none

/-- The registers are as before, or the one the instruction's field names holds a word. -/
theorem Effect.gr_eq_or_set {s t : State} {i : Instr} (h : Effect s i t) :
    t.gr = s.gr ∨ ∃ f j v, writtenField i = some f ∧ f.toNat = Fin.val j ∧ t.gr = s.gr.set j ⟨v, true⟩ := by
  cases h with
  | ldMem j | lad j | ldReg j | adda j | andMem j | suba j | andReg j => exact .inr ⟨_, j, _, rfl, ‹_›, rfl⟩
  | _ => exact .inl rfl

/-- A register the instruction's field does not name keeps value and marker. -/
theorem Effect.getElem_gr {s t : State} {i : Instr} (h : Effect s i t) {k : Fin 8}
    (hk : ∀ f, writtenField i = some f → k.val ≠ f.toNat) : t.gr[k] = s.gr[k] := by
  rcases h.gr_eq_or_set with hgr | ⟨f, j, v, hf, hj, hgr⟩
  · rw [hgr]
  · have hne : j.val ≠ k.val := fun h => hk f hf (h.symm.trans hj.symm)
    rw [hgr]
    exact Vector.getElem_set_ne j.isLt k.isLt hne

/-- An instruction that writes no register keeps them all. -/
theorem Effect.gr_eq {s t : State} {i : Instr} (h : Effect s i t) (hi : writtenField i = none) : t.gr = s.gr := by
  rcases h.gr_eq_or_set with hgr | ⟨f, j, v, hf, -, -⟩
  · exact hgr
  · rw [hi] at hf
    cases hf

/-- R27: an instruction that does not call SetFlags leaves the flags. -/
theorem Effect.flags_eq {s t : State} {i : Instr} (h : Effect s i t) (hi : setsFlags i = false) :
    t.flags = s.flags := by
  cases h with
  | fault | st | lad | jmi | jze | jump | jpl | ret | svc => rfl
  | _ => cases hi

/-- R26, R27: an instruction that calls SetFlags faults or sets them from one signed result. -/
theorem Effect.flags_eq_flagsOf {s t : State} {i : Instr} (h : Effect s i t) (hi : setsFlags i = true) :
    (∃ c, t = faultedAs c s) ∨ ∃ r, t.flags = flagsOf r := by
  cases h with
  | fault _ c => exact .inl ⟨c, rfl⟩
  | cpaMem k a b | cpaReg a b => exact .inr ⟨compareWords a b, (flagsOf_compareWords a b).symm⟩
  | ldMem | ldReg | adda | andMem | suba | andReg => exact .inr ⟨_, (flagsOf_sext16 _).symm⟩
  | _ => cases hi

/-- The flags are as before, or those of one signed result. -/
theorem Effect.flags_eq_or {s t : State} {i : Instr} (h : Effect s i t) :
    t.flags = s.flags ∨ ∃ r, t.flags = flagsOf r := by
  cases hi : setsFlags i with
  | false => exact .inl (h.flags_eq hi)
  | true =>
    rcases h.flags_eq_flagsOf hi with ⟨c, rfl⟩ | hr
    · exact .inl rfl
    · exact .inr hr

/-- Memory is as before, or one word has been written. -/
theorem Effect.mem_eq_or_write {s t : State} {i : Instr} (h : Effect s i t) :
    t.mem = s.mem ∨ ∃ a v, t.mem = s.mem.write a v := by
  cases h with
  | st k v => exact .inr ⟨_, v, rfl⟩
  | _ => exact .inl rfl

/-- R53: an instruction that is no store keeps memory. -/
theorem Effect.mem_eq {s t : State} {i : Instr} (h : Effect s i t) (hi : ∀ r1 adr x, i ≠ .st r1 adr x) :
    t.mem = s.mem := by
  rcases h.mem_eq_or_st with hm | ⟨r1, adr, x, rfl⟩
  · exact hm
  · exact absurd rfl (hi r1 adr x)

/-- R32: the history is as before, or a supervisor call has put one transaction at its end. -/
theorem Effect.outputs_eq_or_svc {s t : State} {i : Instr} (h : Effect s i t) :
    t.outputs = s.outputs ∨ ∃ dp lp ws, i = .svc dp lp ∧ t.outputs = s.outputs ++ [ws] := by
  cases h with
  | svc lw ws => exact .inr ⟨_, _, ws, rfl, rfl⟩
  | _ => exact .inl rfl

/-- An instruction that is no supervisor call keeps the history. -/
theorem Effect.outputs_eq {s t : State} {i : Instr} (h : Effect s i t) (hi : ∀ dp lp, i ≠ .svc dp lp) :
    t.outputs = s.outputs := by
  rcases h.outputs_eq_or_svc with ho | ⟨dp, lp, ws, rfl, -⟩
  · exact ho
  · exact absurd rfl (hi dp lp)

/-- R30: an instruction leaves the status, halts as RET does, or faults. -/
theorem Effect.status_cases {s t : State} {i : Instr} (h : Effect s i t) :
    t.status = s.status ∨ (i = .ret ∧ t = { s with status := .halted }) ∨
      ∃ c, c ≠ .invalidExternalInput ∧ t = faultedAs c s := by
  cases h with
  | fault _ c hc => exact .inr (.inr ⟨c, hc, rfl⟩)
  | ret => exact .inr (.inl ⟨rfl, rfl⟩)
  | _ => exact .inl rfl

/-- An instruction other than RET leaves the status or faults. -/
theorem Effect.status_eq_or_faulted {s t : State} {i : Instr} (h : Effect s i t) (hi : i ≠ .ret) :
    t.status = s.status ∨ ∃ r, t.status = .faulted r := by
  rcases h.status_cases with hs | ⟨rfl, -⟩ | ⟨c, -, rfl⟩
  · exact .inl hs
  · exact absurd rfl hi
  · exact .inr ⟨_, rfl⟩

/-- Every instruction leaves the status, halts or faults. -/
theorem Effect.status_eq_or_stopped {s t : State} {i : Instr} (h : Effect s i t) :
    t.status = s.status ∨ t.status = .halted ∨ ∃ r, t.status = .faulted r := by
  rcases h.status_cases with hs | ⟨-, rfl⟩ | ⟨c, -, rfl⟩
  · exact .inl hs
  · exact .inr (.inl rfl)
  · exact .inr (.inr ⟨_, rfl⟩)

/-! ### The frames -/

/-- The frame of an instruction that is no store, supervisor call or RET: memory, the history and, unless it faults,
the status. -/
theorem exec_frame {s t : State} {i : Instr} (h : exec i s = .next t) (hst : ∀ r1 adr x, i ≠ .st r1 adr x)
    (hsvc : ∀ dp lp, i ≠ .svc dp lp) (hret : i ≠ .ret) :
    (∀ a, t.mem.read a = s.mem.read a) ∧ t.outputs = s.outputs ∧
      (t.status = s.status ∨ ∃ r, t.status = .faulted r) :=
  have e := exec_effect h
  ⟨fun a => by rw [e.mem_eq hst], e.outputs_eq hsvc, e.status_eq_or_faulted hret⟩

/-- A register other than the one the field `f` names, after an instruction that writes the latter. -/
theorem exec_getElem_gr {s t : State} {i : Instr} {f : RegField} (h : exec i s = .next t)
    (hf : writtenField i = some f) (k : Fin 8) (hk : k.val ≠ f.toNat) : t.gr[k] = s.gr[k] := by
  refine (exec_effect h).getElem_gr fun g hg => ?_
  rw [hf] at hg
  cases hg
  exact hk

/-- Settles O49: the six forms write the register of their first field, and no memory or output. -/
theorem loadAndAluFrame : Obligations.LoadAndAluFrame := by
  unfold Obligations.LoadAndAluFrame
  rintro s t r1 r2 x adr (h | h | h | h | h | h) <;>
    exact ⟨exec_getElem_gr h rfl, exec_frame h nofun nofun nofun⟩

/-- Settles O50: LAD writes the register of its first field and sets no flag. -/
theorem loadAddressFrame : Obligations.LoadAddressFrame := by
  unfold Obligations.LoadAddressFrame
  intro s t r1 x adr h
  exact ⟨exec_getElem_gr h rfl, (exec_effect h).flags_eq rfl, exec_frame h nofun nofun nofun⟩

/-- R151: a store writes at its effective address, or faults and writes nothing. -/
theorem exec_st_mem {s t : State} {r1 x : RegField} {adr : Word} (h : exec (.st r1 adr x) s = .next t) :
    t.mem = s.mem ∨ ∃ ea v, effectiveAddress x adr s = .ok ea ∧ t.mem = s.mem.write ea v := by
  cases exec_effect h with
  | fault => exact .inl rfl
  | st k v hk => exact .inr ⟨_, v, effectiveAddress_of_indexHolds adr hk, rfl⟩

/-- Settles O51: the one word a store can write is at its effective address, if it has one. -/
theorem storeFrame : Obligations.StoreFrame := by
  unfold Obligations.StoreFrame
  intro s t r1 x adr h
  have e := exec_effect h
  refine ⟨e.gr_eq rfl, e.flags_eq rfl, e.outputs_eq nofun, fun ea hea b hb => ?_, fun c hc b => ?_,
    e.status_eq_or_faulted nofun⟩
  · rcases exec_st_mem h with hm | ⟨ea', v, hea', hm⟩
    · rw [hm]
    · cases hea.symm.trans hea'
      rw [hm, Memory.read_write_other _ _ hb]
  · rcases exec_st_mem h with hm | ⟨ea, v, hea, -⟩
    · rw [hm]
    · cases hc.symm.trans hea

/-- Settles O52: both forms of CPA write no register. -/
theorem compareFrame : Obligations.CompareFrame := by
  unfold Obligations.CompareFrame
  rintro s t r1 r2 x adr (h | h) <;> exact ⟨(exec_effect h).gr_eq rfl, exec_frame h nofun nofun nofun⟩

/-- Settles O53: the jumps and RET write no register, flag or memory and put nothing out. -/
theorem controlFrame : Obligations.ControlFrame := by
  unfold Obligations.ControlFrame
  rintro s t x adr (h | h | h | h | h)
  all_goals
    have e := exec_effect h
    exact ⟨e.gr_eq rfl, e.flags_eq rfl, fun a => by rw [e.mem_eq nofun], e.outputs_eq nofun, e.status_eq_or_stopped⟩

/-- Settles O54: SVC writes no register, flag or memory, and puts at most one transaction at the end. -/
theorem supervisorFrame : Obligations.SupervisorFrame := by
  unfold Obligations.SupervisorFrame
  intro s t dp lp h
  have e := exec_effect h
  refine ⟨e.gr_eq rfl, e.flags_eq rfl, fun a => by rw [e.mem_eq nofun], ?_, e.status_eq_or_faulted nofun⟩
  exact e.outputs_eq_or_svc.imp_right fun ⟨_, _, ws, _, ho⟩ => ⟨ws, ho⟩

/-! ### Instructions and the flags, the history -/

/-- Settles O30, from what an instruction does to the flags as it calls SetFlags or not. -/
theorem flagsChangeOnlyByFlagWriters : Obligations.FlagsChangeOnlyByFlagWriters := by
  unfold Obligations.FlagsChangeOnlyByFlagWriters
  exact fun i s t h => ⟨(exec_effect h).flags_eq, (exec_effect h).flags_eq_flagsOf⟩

/-- Settles O43: of an instruction's effects only the supervisor call's is one on the history. -/
theorem outputsGrowOnlyBySvc : Obligations.OutputsGrowOnlyBySvc := by
  unfold Obligations.OutputsGrowOnlyBySvc
  exact fun i s t h => (exec_effect h).outputs_eq_or_svc

/-! ### Steps -/

/-- A step changes nothing or is the effect of an instruction: a fault of the fetch is one every instruction has. -/
theorem step_eq_or_effect {s t : State} (h : step s = .next t) : t = s ∨ ∃ i, Effect s i t := by
  rcases step_effect h with ⟨-, rfl⟩ | ⟨-, i, -, e⟩ | ⟨-, c, hf, rfl⟩
  · exact .inl rfl
  · exact .inr ⟨i, e⟩
  · exact .inr ⟨.ret, .fault _ c (notExternal_fetch s c hf)⟩

theorem step_gr {s t : State} (h : step s = .next t) :
    t.gr = s.gr ∨ ∃ (j : Fin 8) (v : Word), t.gr = s.gr.set j ⟨v, true⟩ := by
  rcases step_eq_or_effect h with rfl | ⟨i, e⟩
  · exact .inl rfl
  · exact e.gr_eq_or_set.imp_right fun ⟨_, j, v, _, _, hgr⟩ => ⟨j, v, hgr⟩

theorem step_flags {s t : State} (h : step s = .next t) : t.flags = s.flags ∨ ∃ r, t.flags = flagsOf r := by
  rcases step_eq_or_effect h with rfl | ⟨i, e⟩
  · exact .inl rfl
  · exact e.flags_eq_or

theorem step_mem {s t : State} (h : step s = .next t) : t.mem = s.mem ∨ ∃ a v, t.mem = s.mem.write a v := by
  rcases step_eq_or_effect h with rfl | ⟨i, e⟩
  · exact .inl rfl
  · exact e.mem_eq_or_write

/-- Settles O31: the flags of a signed result have OF 0. -/
theorem overflowFlagNeverSet : Obligations.OverflowFlagNeverSet := by
  unfold Obligations.OverflowFlagNeverSet
  intro s t h
  rcases step_flags h with hf | ⟨r, hf⟩
  · exact .inl (by rw [hf])
  · exact .inr (by rw [hf]; rfl)

/-- A register written stays written when one is set. -/
theorem written_set {gr : Vector (Marked Word) 8} {i : Fin 8} (h : gr[i].written = true) (j : Fin 8) (v : Word) :
    (gr.set j ⟨v, true⟩)[i].written = true := by
  rw [Fin.getElem_fin, Vector.getElem_set]
  split
  · rfl
  · exact h

/-- Settles O32: registers, flags and memory each are as before or written with the marker set. -/
theorem markersNeverCleared : Obligations.MarkersNeverCleared := by
  unfold Obligations.MarkersNeverCleared
  intro s t h
  refine ⟨fun i hi => ?registers, ?of, ?sf, ?zf, fun a ha => ?memory⟩
  case registers =>
    rcases step_gr h with hgr | ⟨j, v, hgr⟩ <;> rw [hgr]
    · exact hi
    · exact written_set hi j v
  case memory =>
    rcases step_mem h with hm | ⟨b, v, hm⟩ <;> rw [hm]
    · exact ha
    · rw [Memory.read_write]
      split
      · exact nofun
      · exact ha
  all_goals
    intro hw
    rcases step_flags h with hf | ⟨r, hf⟩ <;> rw [hf]
    · exact hw
    · rfl

end Sys2Proof.Machine
end

section
/-!
PROOFS. The machine's invariant (R26, R28, R50, R133, R230, R240), how a step halts, and that a stopped unit stays so.
-/

namespace Sys2Proof.Machine

/-! ### The fetch of RET -/

/-- RET is fetched only where the word at PC has its opcode byte. -/
theorem opcodeOf_of_fetch_ret {s : State} (h : fetch s = .ok .ret) :
    ∃ w, s.mem.read s.pc = some w ∧ opcodeOf w = 0x81 := by
  obtain ⟨w, op, ws, hw, hop, -, hret⟩ := fetch_eq_ok.mp h
  refine ⟨w, hw, (decodeFirst_eq_ok.mp hop).1.trans ?_⟩
  cases op with
  | ret => rfl
  | _ => cases hret

/-- What a running step does to the status: nothing, the halt of a fetched RET, or a fault. -/
theorem step_status_cases {s t : State} (hs : s.status = .running) (h : step s = .next t) :
    t.status = .running ∨ (fetch s = .ok .ret ∧ t = { s with status := .halted }) ∨
      ∃ c, c ≠ .invalidExternalInput ∧ t = faultedAs c s := by
  rcases step_effect h with ⟨hstopped, -⟩ | ⟨-, i, hf, e⟩ | ⟨-, c, hf, rfl⟩
  · exact absurd hs hstopped
  · rcases e.status_cases with hst | ⟨rfl, ht⟩ | hfault
    · exact .inl (hst.trans hs)
    · exact .inr (.inl ⟨hf, ht⟩)
    · exact .inr (.inr hfault)
  · exact .inr (.inr ⟨c, notExternal_fetch s c hf, rfl⟩)

/-- Settles O39: of the three ends of a running step only the halt of a fetched RET leaves the status Halted. -/
theorem haltOnlyByRet : Obligations.HaltOnlyByRet := by
  unfold Obligations.HaltOnlyByRet
  intro s t hs h ht
  rcases step_status_cases hs h with hrun | ⟨hf, rfl⟩ | ⟨c, -, rfl⟩
  · exact absurd (hrun.symm.trans ht) nofun
  · obtain ⟨w, hw, hop⟩ := opcodeOf_of_fetch_ret hf
    exact ⟨w, hw, hop, rfl⟩
  · cases ht

/-! ### The invariant -/

/-- The flags of a signed result are legal: OF is 0, and no number is both negative and zero. -/
theorem flagsOf_legal (r : Int) : (flagsOf r).Legal := by
  refine ⟨rfl, rfl, fun _ => ⟨rfl, ?_⟩⟩
  rintro ⟨hneg, hzero⟩
  have := of_decide_eq_true hneg
  have := of_decide_eq_true hzero
  omega

/-- Every step keeps the canonical form of memory. -/
theorem step_mem_wf {s t : State} (hm : s.mem.wf = true) (h : step s = .next t) : t.mem.wf = true := by
  rcases step_mem h with ht | ⟨a, v, ht⟩ <;> rw [ht]
  · exact hm
  · exact Memory.wf_write a v hm

/-- Every step keeps the flags legal. -/
theorem step_flags_legal {s t : State} (hf : s.flags.Legal) (h : step s = .next t) : t.flags.Legal := by
  rcases step_flags h with ht | ⟨r, ht⟩ <;> rw [ht]
  · exact hf
  · exact flagsOf_legal r

/-- A running step leaves a status that fits the state: still Running, Halted at a RET, or the record of the fault
entry, which names what stands in the state it leaves. -/
theorem step_status_fits {s t : State} (hs : s.status = .running) (h : step s = .next t) :
    t.status.Coherent t ∧ t.status.AtRet t := by
  rcases step_status_cases hs h with hrun | ⟨hf, rfl⟩ | ⟨c, hc, rfl⟩
  · rw [hrun]
    exact ⟨trivial, trivial⟩
  · obtain ⟨w, hw, hop⟩ := opcodeOf_of_fetch_ret hf
    exact ⟨trivial, Option.map_eq_some_iff.mpr ⟨w, hw, hop⟩⟩
  · exact ⟨⟨rfl, rfl, FaultCause.code_bounds hc⟩, trivial⟩

/-- Settles O34: nothing is written after reset, and the status is Running. -/
theorem resetMeetsInvariant : Obligations.ResetMeetsInvariant := by
  unfold Obligations.ResetMeetsInvariant
  exact fun entry => ⟨State.resetAt_mem_wf entry, ⟨rfl, rfl, nofun⟩, trivial, trivial⟩

/-- Settles O35, part by part; a stopped state, whose status has to fit already, is its own next state. -/
theorem stepKeepsInvariant : Obligations.StepKeepsInvariant := by
  unfold Obligations.StepKeepsInvariant
  intro s t hinv h
  by_cases hs : s.status = .running
  · obtain ⟨hm, hf, -, -⟩ := hinv
    exact ⟨step_mem_wf hm h, step_flags_legal hf h, step_status_fits hs h⟩
  · cases (step_stopped hs).symm.trans h
    exact hinv

/-! ### Stopped units -/

/-- Settles O38: a run goes on from where its first part ended, and from a stopped state no step leads away. -/
theorem stoppedIsPermanent : Obligations.StoppedIsPermanent := by
  unfold Obligations.StoppedIsPermanent
  intro m n s t h hstopped
  rw [← hostRun_eq_coreRun] at h ⊢
  exact (hostRun_add n h).trans (hostRun_stopped hstopped n)

end Sys2Proof.Machine
end

section
/-!
PROOFS. What a step cannot see (R12, R31, R32, R46): values beside a clear marker, and the output history. Both are
one argument: a relation between states that no read of an instruction tells apart and every write keeps is kept by
the step.
-/

namespace Sys2Proof.Machine

/-! ### Relations a step keeps -/

/-- States that `R` relates read alike: the same PC, status and memory, and in every register and flag a jump reads the
same value or none. `R` holds again after the same write to both. -/
structure Unseen (R : State → State → Prop) : Prop where
  pc {s t} : R s t → s.pc = t.pc
  mem {s t} : R s t → s.mem = t.mem
  status {s t} : R s t → s.status = t.status
  gr {s t} : R s t → ∀ i : Fin 8, s.gr[i].seen = t.gr[i].seen
  sf {s t} : R s t → s.flags.sf.seen = t.flags.sf.seen
  zf {s t} : R s t → s.flags.zf.seen = t.flags.zf.seen
  setPc {s t} (p : Word) : R s t → R (s.setPc p) (t.setPc p)
  setReg {s t} (i : Fin 8) (v : Word) : R s t → R (s.setReg i v) (t.setReg i v)
  putFlags {s t} (f : Flags) : R s t → R (s.putFlags f) (t.putFlags f)
  setMem {s t} (m : Memory) : R s t → R (s.setMem m) (t.setMem m)
  setStatus {s t} (st : Status) : R s t → R (s.setStatus st) (t.setStatus st)
  appendOutput {s t} (ws : List Word) : R s t → R (s.appendOutput ws) (t.appendOutput ws)

/-- Two attempts that raise the same fault, or end in related states. -/
inductive Alike (R : State → State → Prop) : Except FaultCause State → Except FaultCause State → Prop where
  | ok {s t : State} (h : R s t) : Alike R (.ok s) (.ok t)
  | error (c : FaultCause) : Alike R (.error c) (.error c)

/-- Attempts that begin with the same read are alike when they go on alike. -/
theorem Alike.bind {R : State → State → Prop} {α : Type} {x y : Except FaultCause α}
    {f g : α → Except FaultCause State} (hxy : x = y) (hfg : ∀ a, Alike R (f a) (g a)) :
    Alike R (x >>= f) (y >>= g) := by
  subst hxy
  cases x with
  | ok a => exact hfg a
  | error c => exact .error c

/-- A read of marked storage depends on what is seen of it. -/
theorem ite_written_eq {α ε : Type} (m : Marked α) (e : ε) :
    (if m.written then Except.ok m.value else .error e) = m.seen.elim (.error e) .ok := by
  unfold Marked.seen
  split <;> rfl

namespace Unseen

variable {R : State → State → Prop} (hR : Unseen R) {s t : State} (h : R s t)

include hR h

/-! ### Reads -/

theorem readReg (f : RegField) : readReg f s = readReg f t := by
  simp only [Machine.readReg, ite_written_eq, hR.gr h]

theorem memRead (a : Word) : memRead a s = memRead a t := by
  rw [Machine.memRead, hR.mem h]
  rfl

theorem readSf : readSf s = readSf t := by
  simp only [Machine.readSf, ite_written_eq, hR.sf h]

theorem readZf : readZf s = readZf t := by
  simp only [Machine.readZf, ite_written_eq, hR.zf h]

theorem readPlus : readPlus s = readPlus t := by
  rw [Machine.readPlus, hR.readSf h, hR.readZf h]
  rfl

theorem readBlock (a : Word) (n : Nat) : readBlock a n s = readBlock a n t := by
  induction n generalizing a with
  | zero => rfl
  | succ n ih => simp only [Machine.readBlock, hR.memRead h, ih]

theorem effectiveAddress (x : RegField) (adr : Word) : effectiveAddress x adr s = effectiveAddress x adr t := by
  simp only [Machine.effectiveAddress, hR.readReg h]

theorem memOperands (r1 : RegField) (adr : Word) (x : RegField) : memOperands r1 adr x s = memOperands r1 adr x t := by
  simp only [Machine.memOperands, hR.effectiveAddress h, hR.readReg h, hR.memRead h]

theorem regOperands (r1 r2 : RegField) : regOperands r1 r2 s = regOperands r1 r2 t := by
  simp only [Machine.regOperands, hR.readReg h]

theorem fetch : fetch s = fetch t := by
  simp only [Machine.fetch, hR.memRead h, hR.readBlock h, hR.pc h]

/-! ### Writes and the ends of an attempt -/

theorem advance (n : Nat) : R (advance n s) (advance n t) := by
  rw [Machine.advance, hR.pc h]
  exact hR.setPc _ h

theorem memWrite (a v : Word) : R (memWrite a v s) (memWrite a v t) := by
  rw [Machine.memWrite, hR.mem h]
  exact hR.setMem _ h

theorem faultedAs (c : FaultCause) : R (faultedAs c s) (faultedAs c t) := by
  rw [← takeFault_eq, ← takeFault_eq, takeFault, hR.pc h, hR.mem h]
  exact hR.setStatus _ h

/-- R152's end: an address written to a register, no flag set. -/
theorem writeRegAdvance (f : RegField) (v : Word) (n : Nat) :
    Alike R (writeReg f v s >>= fun u => .ok (Machine.advance n u))
      (writeReg f v t >>= fun u => .ok (Machine.advance n u)) := by
  simp only [writeReg, bind_assoc, bind_ok]
  exact .bind rfl fun i => .ok (hR.advance (hR.setReg i v h) n)

theorem writeResult (r1 : RegField) (res : Word) (n : Nat) :
    Alike R (writeResult r1 res n s) (writeResult r1 res n t) := by
  simp only [Machine.writeResult, writeReg, bind_assoc, bind_ok]
  exact .bind rfl fun i => .ok (hR.advance (hR.putFlags _ (hR.setReg i res h)) n)

theorem jumpAttempt (adr : Word) (x : RegField) {cond cond' : Except FaultCause Bool} (hcond : cond = cond') :
    Alike R (jumpAttempt adr x cond s) (jumpAttempt adr x cond' t) :=
  .bind (hR.effectiveAddress h x adr) fun ea => .bind hcond fun taken => by
    cases taken with
    | false => exact .ok (hR.advance h 2)
    | true => exact .ok (hR.setPc ea h)

/-- Alike attempts are committed to related states. -/
theorem commit {r r' : Except FaultCause State} (hr : Alike R r r') :
    ∃ s' t', commit s r = .next s' ∧ commit t r' = .next t' ∧ R s' t' := by
  cases hr with
  | ok h' => exact ⟨_, _, rfl, rfl, h'⟩
  | error c => exact ⟨_, _, rfl, rfl, hR.faultedAs h c⟩

/-- From related states an instruction leads to related states. -/
theorem exec (i : Instr) : ∃ s' t', exec i s = .next s' ∧ exec i t = .next t' ∧ R s' t' := by
  cases i with
  | ldMem r1 adr x =>
    rw [exec_ldMem, exec_ldMem]
    exact hR.commit h (.bind (hR.effectiveAddress h x adr) fun ea => .bind (hR.memRead h ea) fun v =>
      hR.writeResult h r1 v 2)
  | st r1 adr x =>
    rw [exec_st, exec_st]
    exact hR.commit h (.bind (hR.effectiveAddress h x adr) fun ea => .bind (hR.readReg h r1) fun v =>
      .ok (hR.advance (hR.memWrite h ea v) 2))
  | lad r1 adr x =>
    rw [exec_lad, exec_lad]
    exact hR.commit h (.bind (hR.effectiveAddress h x adr) fun ea => hR.writeRegAdvance h r1 ea 2)
  | ldReg r1 r2 =>
    rw [exec_ldReg, exec_ldReg]
    exact hR.commit h (.bind (hR.readReg h r2) fun v => hR.writeResult h r1 v 1)
  | adda r1 adr x =>
    rw [exec_adda, exec_adda]
    exact hR.commit h (.bind (hR.memOperands h r1 adr x) fun ops => hR.writeResult h r1 _ 2)
  | suba r1 r2 =>
    rw [exec_suba, exec_suba]
    exact hR.commit h (.bind (hR.regOperands h r1 r2) fun ops => hR.writeResult h r1 _ 1)
  | andMem r1 adr x =>
    rw [exec_andMem, exec_andMem]
    exact hR.commit h (.bind (hR.memOperands h r1 adr x) fun ops => hR.writeResult h r1 _ 2)
  | andReg r1 r2 =>
    rw [exec_andReg, exec_andReg]
    exact hR.commit h (.bind (hR.regOperands h r1 r2) fun ops => hR.writeResult h r1 _ 1)
  | cpaMem r1 adr x =>
    rw [exec_cpaMem, exec_cpaMem]
    exact hR.commit h (.bind (hR.memOperands h r1 adr x) fun ops => .ok (hR.advance (hR.putFlags _ h) 2))
  | cpaReg r1 r2 =>
    rw [exec_cpaReg, exec_cpaReg]
    exact hR.commit h (.bind (hR.regOperands h r1 r2) fun ops => .ok (hR.advance (hR.putFlags _ h) 1))
  | jmi adr x =>
    rw [exec_jmi, exec_jmi]
    exact hR.commit h (hR.jumpAttempt h adr x (hR.readSf h))
  | jze adr x =>
    rw [exec_jze, exec_jze]
    exact hR.commit h (hR.jumpAttempt h adr x (hR.readZf h))
  | jump adr x =>
    rw [exec_jump, exec_jump]
    exact hR.commit h (hR.jumpAttempt h adr x rfl)
  | jpl adr x =>
    rw [exec_jpl, exec_jpl]
    exact hR.commit h (hR.jumpAttempt h adr x (hR.readPlus h))
  | ret =>
    exact hR.commit h (.ok (hR.setStatus .halted h))
  | svc dp lp =>
    rw [exec_svc, exec_svc]
    exact hR.commit h (.bind (hR.memRead h lp) fun lw => .bind rfl fun n => .bind (hR.readBlock h dp n) fun ws =>
      .ok (hR.advance (hR.appendOutput ws h) 3))

/-- From related states a step leads to related states. -/
theorem step : ∃ s' t', step s = .next s' ∧ step t = .next t' ∧ R s' t' := by
  have hstatus := hR.status h
  rcases step_cases s with ⟨hs, hstep⟩ | ⟨hs, i, hf, hstep⟩ | ⟨hs, c, hf, hstep⟩
  · rw [hstatus] at hs
    exact ⟨s, t, hstep, step_stopped hs, h⟩
  · rw [hstep, step_fetched (hstatus.symm.trans hs) ((hR.fetch h).symm.trans hf)]
    exact hR.exec h i
  · exact ⟨_, _, hstep, step_unfetched (hstatus.symm.trans hs) ((hR.fetch h).symm.trans hf), hR.faultedAs h c⟩

end Unseen

/-! ### Values beside a clear marker -/

theorem observe_setPc (s : State) (p : Word) : observe (s.setPc p) = { observe s with pc := p } := rfl

theorem observe_setReg (s : State) (i : Fin 8) (v : Word) :
    observe (s.setReg i v) = { observe s with gr := (observe s).gr.set i (some v) } := by
  have hset : (s.gr.set i ⟨v, true⟩).map Marked.seen = (s.gr.map Marked.seen).set i (some v) := Vector.map_set
  simp only [observe, State.setReg, hset]

theorem observe_putFlags (s : State) (f : Flags) :
    observe (s.putFlags f) = { observe s with of := f.of.seen, sf := f.sf.seen, zf := f.zf.seen } := rfl

theorem observe_setMem (s : State) (m : Memory) : observe (s.setMem m) = { observe s with dump := m } := rfl

theorem observe_setStatus (s : State) (st : Status) :
    observe (s.setStatus st) = { observe s with status := st, faultCode := st.faultCode } := rfl

theorem observe_appendOutput (s : State) (ws : List Word) :
    observe (s.appendOutput ws) = { observe s with outputs := (observe s).outputs ++ [ws] } := rfl

theorem observe_gr (s : State) (i : Fin 8) : (observe s).gr[i] = s.gr[i].seen := Vector.getElem_map _ i.isLt

/-- What the host cannot tell apart no instruction can, and what a write leaves the host sees from what it saw. -/
theorem unseen_observe : Unseen (fun s t => observe s = observe t) where
  pc h := congrArg Observation.pc h
  mem h := congrArg Observation.dump h
  status h := congrArg Observation.status h
  gr {s t} h i := by rw [← observe_gr, ← observe_gr, h]
  sf h := congrArg Observation.sf h
  zf h := congrArg Observation.zf h
  setPc p h := by rw [observe_setPc, observe_setPc, h]
  setReg i v h := by rw [observe_setReg, observe_setReg, h]
  putFlags f h := by rw [observe_putFlags, observe_putFlags, h]
  setMem m h := by rw [observe_setMem, observe_setMem, h]
  setStatus st h := by rw [observe_setStatus, observe_setStatus, h]
  appendOutput ws h := by rw [observe_appendOutput, observe_appendOutput, h]

/-- Settles O36: equal observations are a relation the step keeps. -/
theorem unwrittenValuesUnobservable : Obligations.UnwrittenValuesUnobservable := by
  unfold Obligations.UnwrittenValuesUnobservable
  intro s t s' t' h hs ht
  obtain ⟨u, v, hu, hv, huv⟩ := unseen_observe.step h
  cases hs.symm.trans hu
  cases ht.symm.trans hv
  exact huv

/-! ### The output history -/

/-- The state with transactions put before its output history. -/
def State.prependOutputs (h : List (List Word)) (s : State) : State := { s with outputs := h ++ s.outputs }

/-- No instruction reads the history, and a transaction put at its end does not touch what stands before it. -/
theorem unseen_prependOutputs (h : List (List Word)) : Unseen (fun s t => t = s.prependOutputs h) where
  pc := by rintro s _ rfl; rfl
  mem := by rintro s _ rfl; rfl
  status := by rintro s _ rfl; rfl
  gr := by rintro s _ rfl i; rfl
  sf := by rintro s _ rfl; rfl
  zf := by rintro s _ rfl; rfl
  setPc p := by rintro rfl; rfl
  setReg i v := by rintro rfl; rfl
  putFlags f := by rintro rfl; rfl
  setMem m := by rintro rfl; rfl
  setStatus st := by rintro rfl; rfl
  appendOutput {s _} ws := by
    rintro rfl
    simp only [State.prependOutputs, State.appendOutput, List.append_assoc]

/-- Settles O44: a longer history is a relation the step keeps. -/
theorem outputHistoryNeverRead : Obligations.OutputHistoryNeverRead := by
  unfold Obligations.OutputHistoryNeverRead
  intro s t h hs
  obtain ⟨u, v, hu, hv, rfl⟩ := (unseen_prependOutputs h).step (s := s) rfl
  cases hs.symm.trans hu
  exact hv

end Sys2Proof.Machine
end

section
/-!
PROOFS. The image load and the memory dump (R46, R50, R261).
-/

namespace Sys2Proof.Machine

/-- A read after the image load, when the image has one word per address: the image's word, or what was read before. -/
theorem Memory.read_writeAll {image : List (Word × Word)} (m : Memory) (hone : image.Pairwise (fun p q => p.1 ≠ q.1))
    (a w : Word) :
    (m.writeAll image).read a = some w ↔ (a, w) ∈ image ∨ ((∀ v, (a, v) ∉ image) ∧ m.read a = some w) := by
  induction image generalizing m with
  | nil => simp [Memory.writeAll]
  | cons e rest ih =>
    obtain ⟨b, u⟩ := e
    obtain ⟨hb, hrest⟩ := List.pairwise_cons.mp hone
    rw [Memory.writeAll, ih _ hrest, Memory.read_write]
    by_cases hab : a = b
    · subst hab
      have hnot : ∀ v, (a, v) ∉ rest := fun v hv => hb _ hv rfl
      simp [hnot, eq_comm]
    · simp [hab]

/-- Settles O40: the load is a sequence of writes, none of which undoes another. -/
theorem imageLoadRule : Obligations.ImageLoadRule := by
  unfold Obligations.ImageLoadRule
  exact fun image s hone => ⟨Memory.read_writeAll s.mem hone, Memory.wf_writeAll image, rfl⟩

/-- In canonical form every address listed is at least the starting point and inside the address space. -/
theorem Memory.bounds_of_wfFrom {m : Memory} {lo : Nat} (h : m.wfFrom lo = true) :
    ∀ p ∈ m, lo ≤ p.1 ∧ p.1 < 65536 := by
  induction m generalizing lo with
  | nil => nofun
  | cons e m ih =>
    simp only [Memory.wfFrom, Bool.and_eq_true, decide_eq_true_eq] at h
    obtain ⟨⟨hlo, hhi⟩, hm⟩ := h
    refine List.forall_mem_cons.mpr ⟨⟨hlo, hhi⟩, fun p hp => ?_⟩
    obtain ⟨hlo', hhi'⟩ := ih hm p hp
    exact ⟨by omega, hhi'⟩

/-- In canonical form the addresses listed are strictly ascending. -/
theorem Memory.ascending_of_wfFrom {m : Memory} {lo : Nat} (h : m.wfFrom lo = true) :
    m.Pairwise (fun p q => p.1 < q.1) := by
  induction m generalizing lo with
  | nil => exact .nil
  | cons e m ih =>
    simp only [Memory.wfFrom, Bool.and_eq_true, decide_eq_true_eq] at h
    exact .cons (fun p hp => (Memory.bounds_of_wfFrom h.2 p hp).1) (ih h.2)

/-- Settles O41: the dump is the memory, and the canonical form orders, bounds and determines it. -/
theorem dumpShowsMemory : Obligations.DumpShowsMemory := by
  unfold Obligations.DumpShowsMemory
  exact fun s hwf => ⟨Memory.ascending_of_wfFrom hwf, fun p hp => (Memory.bounds_of_wfFrom hwf p hp).2,
    Memory.mem_iff_read hwf⟩

end Sys2Proof.Machine
end

section
/-!
PROOFS. Instructions together: the low bits of sums and differences (R176), a comparison and the branch after it
(R197), a store and the fetch after it (R64, R264).
-/

namespace Sys2Proof.Machine

/-! ### Sums and differences -/

/-- The signed readings have the word sum too. -/
theorem trunc16_sext16_add (a b : Word) : trunc16 (sext16 a + sext16 b) = a + b := by
  rw [sext16_eq_toInt, sext16_eq_toInt, trunc16, BitVec.ofInt_add, BitVec.ofInt_toInt, BitVec.ofInt_toInt]

/-- The signed readings have the word difference too. -/
theorem trunc16_sext16_sub (a b : Word) : trunc16 (sext16 a - sext16 b) = a - b := by
  rw [sext16_eq_toInt, sext16_eq_toInt, trunc16, Int.sub_eq_add_neg, BitVec.ofInt_add, BitVec.ofInt_neg,
    BitVec.ofInt_toInt, BitVec.ofInt_toInt, BitVec.sub_eq_add_neg]

/-- What is kept of an integer is the integer modulo 65536 (R11). -/
theorem trunc16_toNat (i : Int) : ((trunc16 i).toNat : Int) = i % 65536 := by
  rw [trunc16, BitVec.toNat_ofInt]
  exact Int.toNat_of_nonneg (Int.emod_nonneg i (by decide))

/-- Settles O45: what is kept is the integer modulo 65536, and both readings have one word sum and one word
difference. -/
theorem aluKeepsLowBits : Obligations.AluKeepsLowBits := by
  unfold Obligations.AluKeepsLowBits
  refine fun a b => ⟨trunc16_toNat _, trunc16_toNat _, ?_, ?_, rfl, rfl⟩
  · rw [addWords, trunc16_toNat_add, trunc16_sext16_add]
  · rw [subWords, trunc16_toNat_sub, trunc16_sext16_sub]

/-! ### A branch after a comparison -/

/-- Neither less nor equal is greater. -/
theorem not_slt_and_ne_iff (a b : Word) : (!a.slt b && !decide (a = b)) = true ↔ b.toInt < a.toInt := by
  rw [Bool.and_eq_true, Bool.not_eq_true', Bool.not_eq_true', decide_eq_false_iff_not, ← Bool.not_eq_true,
    BitVec.slt_iff_toInt_lt, ← BitVec.toInt_inj]
  omega

/-- Settles O46: the comparison leaves the registers, so the branch has its target, and the flags it reads are the
signed order of the operands. -/
theorem branchesAfterCompare : Obligations.BranchesAfterCompare := by
  unfold Obligations.BranchesAfterCompare
  intro s t r1 r2 x adr a b k ha hb hk h
  obtain ⟨-, hresult, -⟩ := compareRegisters s r1 r2
  cases h.symm.trans (hresult a b ha hb)
  have hk' : IndexHolds { s with pc := s.pc + 1, flags := orderFlags a b } x k := hk
  refine ⟨?jump, ?jze, ?jmi, ?jpl⟩
  case jump =>
    rw [exec_jump]
    exact commit_jumpAttempt_of_ok adr hk' rfl
  case jze =>
    rw [exec_jze, commit_jumpAttempt_of_ok adr hk' (readZf_eq_ok.mpr rfl)]
    simp only [decide_eq_true_eq]
  case jmi =>
    rw [exec_jmi, commit_jumpAttempt_of_ok adr hk' (readSf_eq_ok.mpr rfl)]
    simp only [BitVec.slt_iff_toInt_lt]
  case jpl =>
    rw [exec_jpl, commit_jumpAttempt_of_ok adr hk' (readPlus_of_written rfl rfl)]
    simp only [not_slt_and_ne_iff]

/-! ### A fetch after a store -/

/-- A running unit at a word with RET's opcode byte halts. -/
theorem step_of_retWord {s : State} {w : Word} (hs : s.status = .running) (hw : s.mem.read s.pc = some w)
    (hop : opcodeOf w = 0x81) : step s = .next { s with status := .halted } :=
  step_fetched hs (fetch_eq_ok.mpr ⟨w, .ret, [], hw, decodeFirst_eq_ok.mpr ⟨hop, nofun⟩, rfl, rfl⟩)

/-- Settles O47: the store is run as fetched, wherever it writes, and the next fetch reads what it wrote. -/
theorem storeSeenByNextFetch : Obligations.StoreSeenByNextFetch := by
  unfold Obligations.StoreSeenByNextFetch
  intro s r1 x adr ea v hs hf hea hv
  constructor
  · rw [step_fetched hs hf, exec_st, hea, bind_ok, hv]
    rfl
  · rintro rfl hop
    exact step_of_retWord hs (Memory.read_write_same _ _ _) hop

end Sys2Proof.Machine
end

section
/-!
PROOFS. The assembler's lines (R101 to R104): what a machine line that assembles emits decodes to one well-formed
instruction.
-/

namespace Sys2Proof.Assembler

open Sys2Proof.Machine (bind_eq_ok decode_eq_ok)

/-- The words a line emits are a first word of the row with fields that name registers, and as many words after it as
the row's length says. -/
def SpellsRow (op : Opcode) (es : List Emitted) : Prop :=
  ∃ (f1 f2 : RegField) (tl : List Emitted), es = .word (packWord op f1 f2) :: tl ∧ op.words = tl.length + 1 ∧
    RegField.namesRegister f1 = true ∧ RegField.namesRegister f2 = true

theorem fieldOf_namesRegister (i : Fin 8) : RegField.namesRegister (fieldOf i) = true := by
  decide +revert

theorem indexField_namesRegister {o : Operand} {f : RegField} (h : indexField o = some f) :
    RegField.namesRegister f = true := by
  cases o with
  | absent => cases h; rfl
  | register i =>
    simp only [indexField] at h
    split at h
    · cases h
    · cases h
      exact fieldOf_namesRegister i
  | _ => cases h

/-- The length of the machine-instruction lines of a shape (R82 to R84, R101). -/
def Shape.words : Shape → Nat
  | .registers => 1
  | .registerAddress => 2
  | .address => 2
  | .noOperand => 1

/-- A row is as long as its shape says, the supervisor call's apart, which has a word more (R81). -/
theorem words_shapeOf {op : Opcode} (hop : op ≠ .svc) : op.words = (shapeOf op).words := by
  cases op with
  | svc => exact absurd rfl hop
  | _ => rfl

/-- R102, R103: operands that fit a row's shape are packed into a first word and the row's operand word. -/
theorem packOperands_spellsRow {op : Opcode} {o1 o2 o3 : Operand} {es : List Emitted} (hop : op ≠ .svc)
    (h : packOperands op o1 o2 o3 = some es) : SpellsRow op es := by
  have hwords := words_shapeOf hop
  unfold packOperands at h
  split at h
  next a b hshape =>
    rw [hshape] at hwords
    cases h
    exact ⟨fieldOf a, fieldOf b, [], rfl, hwords, fieldOf_namesRegister a, fieldOf_namesRegister b⟩
  next adr x a hshape =>
    rw [hshape] at hwords
    split at h
    next e f he hf =>
      cases h
      exact ⟨fieldOf a, f, [e], rfl, hwords, fieldOf_namesRegister a, indexField_namesRegister hf⟩
    next => cases h
  next adr x hshape =>
    rw [hshape] at hwords
    split at h
    next e f he hf =>
      cases h
      exact ⟨0, f, [e], rfl, hwords, rfl, indexField_namesRegister hf⟩
    next => cases h
  next hshape =>
    rw [hshape] at hwords
    cases h
    exact ⟨0, 0, [], rfl, hwords, rfl, rfl⟩
  next => cases h

/-- The opcode table gives the supervisor call's row to its mnemonic alone (R85, R101). -/
theorem opcodeFor_ne_svc {m : MachineMnemonic} {n : Nat} {op : Opcode} (hm : m ≠ .svc) (h : opcodeFor m n = some op) :
    op ≠ .svc := by
  rintro rfl
  unfold opcodeFor at h
  split at h <;> cases h
  exact hm rfl

/-- A machine line that assembles spells a row of the opcode map (R101 to R104). -/
theorem machineWords_spellsRow {name a b c : Text} {m : MachineMnemonic} {es : List Emitted} (hm : m ≠ .svc)
    (h : machineWords name m a b c = .ok es) : ∃ op, op ≠ .svc ∧ SpellsRow op es := by
  simp only [machineWords, bind_eq_ok] at h
  obtain ⟨o1, -, o2, -, o3, -, op, hop, hpack⟩ := h
  have hne : op ≠ .svc := by
    unfold lookupOpcode at hop
    split at hop
    next op' hop' =>
      cases hop
      exact opcodeFor_ne_svc hm hop'
    next => cases hop
  split at hpack
  next es' hes =>
    cases hpack
    exact ⟨op, hne, packOperands_spellsRow hne hes⟩
  next => cases hpack

/-- A row whose fields name registers is a well-formed instruction. -/
theorem wellFormed_instr (op : Opcode) {w0 : Word} (a b : Word) (h1 : RegField.namesRegister (field1 w0) = true)
    (h2 : RegField.namesRegister (field2 w0) = true) : (op.instr w0 a b).wellFormed = true := by
  cases op with
  | jmi | jze | jump | jpl => exact h2
  | ret | svc => rfl
  | _ => exact Bool.and_eq_true_iff.mpr ⟨h1, h2⟩

/-- Settles O55: what the line spells is a first word of a row and the row's operand words, however its placeholders
are filled. -/
theorem assembledLineDecodes : Obligations.AssembledLineDecodes := by
  unfold Obligations.AssembledLineDecodes
  intro name m a b c es v hm h
  obtain ⟨op, hop, f1, f2, tl, rfl, hlen, h1, h2⟩ := machineWords_spellsRow hm h
  refine ⟨_, decode_eq_ok.mpr ⟨_, _, op, rfl, decodeFirst_packWord hop f1 f2, ?length, rfl, ?rest⟩, ?wellFormed⟩
  case length => rw [List.length_map, hlen]
  case rest => rw [hlen, Nat.add_sub_cancel, ← List.map_drop, List.drop_length, List.map_nil]
  case wellFormed =>
    refine wellFormed_instr op _ _ ?_ ?_
    · rwa [field1_packWord]
    · rwa [field2_packWord]

end Sys2Proof.Assembler
end

section
/-!
PROOFS. The assembler's image (R105, R110, R111): the addresses the passes write, and what the label pass leaves at a
placeholder.
-/

namespace Sys2Proof.Assembler

/-! ### The addresses of the image -/

/-- The image gives one word to each address below `n`, in order, and none to any other. -/
def Covers (image : List (Nat × Word)) (n : Nat) : Prop := image.map Prod.fst = List.range n

/-- A write at a new address adds it at the end. -/
theorem writeImage_fst_of_notMem {m : List (Nat × Word)} {a : Nat} (v : Word) (h : a ∉ m.map Prod.fst) :
    (writeImage m a v).map Prod.fst = m.map Prod.fst ++ [a] := by
  induction m with
  | nil => rfl
  | cons e m ih =>
    obtain ⟨hk, hm⟩ := not_or.mp (mt List.mem_cons.mpr h)
    rw [writeImage, if_neg (Ne.symm hk), List.map_cons, ih hm]
    rfl

/-- A write at an address of the image keeps the addresses. -/
theorem writeImage_fst_of_mem {m : List (Nat × Word)} {a : Nat} (v : Word) (h : a ∈ m.map Prod.fst) :
    (writeImage m a v).map Prod.fst = m.map Prod.fst := by
  induction m with
  | nil => cases h
  | cons e m ih =>
    obtain ⟨k, w⟩ := e
    rw [writeImage]
    split
    next hk => rw [hk]; rfl
    next hk => rw [List.map_cons, ih ((List.mem_cons.mp h).resolve_left (Ne.symm hk))]; rfl

theorem Covers.write_next {image : List (Nat × Word)} {n : Nat} (h : Covers image n) (v : Word) :
    Covers (writeImage image n v) (n + 1) := by
  have hnew : n ∉ image.map Prod.fst := by
    rw [h]
    exact List.not_mem_range_self
  rw [Covers, writeImage_fst_of_notMem v hnew, h, List.range_succ]

theorem Covers.write_below {image : List (Nat × Word)} {n a : Nat} (h : Covers image n) (ha : a < n) (v : Word) :
    Covers (writeImage image a v) n := by
  have hold : a ∈ image.map Prod.fst := by
    rw [h]
    exact List.mem_range.mpr ha
  rw [Covers, writeImage_fst_of_mem v hold, h]

/-! ### The allocate pass -/

theorem defineLabel_image (t : Text) (s : Assembly) : (defineLabel t s).image = s.image := by
  unfold defineLabel
  split <;> rfl

theorem defineLabel_patches (t : Text) (s : Assembly) : (defineLabel t s).patches = s.patches := by
  unfold defineLabel
  split <;> rfl

theorem recordSource_image (n : Nat) (es : List Emitted) (s : Assembly) : (recordSource n es s).image = s.image := by
  unfold recordSource
  split <;> rfl

theorem recordSource_patches (n : Nat) (es : List Emitted) (s : Assembly) :
    (recordSource n es s).patches = s.patches := by
  unfold recordSource
  split <;> rfl

/-- Every word is emitted at the cursor, so the code and data have no gap (R105). -/
theorem allocate_covers {lines : List SourceLine} {s : Assembly} (h : allocate 0 lines Assembly.empty = .ok s) :
    Covers s.image s.cursor := by
  refine allocate_keeps (P := fun s => Covers s.image s.cursor) ?_ ?_ ?_ h rfl
  · intro e s hs
    cases e <;> exact hs.write_next _
  · intro t s hs
    rwa [defineLabel_image, defineLabel_cursor]
  · intro n es s hs
    rwa [recordSource_image, recordSource_cursor]

theorem emitWord_cursor (e : Emitted) (s : Assembly) : (emitWord e s).cursor = s.cursor + 1 := by
  cases e <;> rfl

theorem emitWords_cursor (es : List Emitted) (s : Assembly) : (emitWords es s).cursor = s.cursor + es.length := by
  induction es generalizing s with
  | nil => rfl
  | cons e es ih => rw [emitWords, ih, emitWord_cursor, List.length_cons, Nat.add_assoc, Nat.add_comm 1]

/-- The allocate pass stops before its cursor passes the end of the address space (R105). -/
theorem allocate_cursor_le {n : Nat} {lines : List SourceLine} {s t : Assembly} (h : allocate n lines s = .ok t)
    (hs : s.cursor ≤ 65536) : t.cursor ≤ 65536 := by
  induction lines generalizing n s with
  | nil => cases h; exact hs
  | cons line rest ih =>
    obtain ⟨es, -, hle, hrest⟩ := allocate_cons_eq_ok.mp h
    refine ih hrest ?_
    rwa [emitWords_cursor, recordSource_cursor, defineLabel_cursor]

/-- The placeholders scheduled so far, of labels and of literals, are distinct addresses below the cursor. -/
def SchedulesApart (s : Assembly) : Prop :=
  PlaceholdersBelow s.cursor s.patches ∧ PlaceholdersBelow s.cursor s.literals ∧
    ∀ p ∈ s.patches, ∀ l ∈ s.literals, p.1 ≠ l.1

/-- A word emitted at the cursor is at most one new placeholder, above those scheduled before it. -/
theorem emitWord_keeps_apart (e : Emitted) (s : Assembly) (h : SchedulesApart s) : SchedulesApart (emitWord e s) := by
  obtain ⟨hp, hl, hne⟩ := h
  cases e with
  | word w => exact ⟨hp.next, hl.next, hne⟩
  | literalRef v =>
    refine ⟨hp.next, hl.schedule v, fun p hp' l hl' => ?_⟩
    rcases List.mem_append.mp hl' with hl' | hl'
    · exact hne p hp' l hl'
    · cases List.mem_singleton.mp hl'
      exact (hp.2 p hp').ne
  | labelRef t =>
    refine ⟨hp.schedule t, hl.next, fun p hp' l hl' => ?_⟩
    rcases List.mem_append.mp hp' with hp' | hp'
    · exact hne p hp' l hl'
    · cases List.mem_singleton.mp hp'
      exact (hl.2 l hl').ne'

/-- The allocate pass leaves all placeholders distinct and below the pool. -/
theorem allocate_apart {lines : List SourceLine} {s : Assembly} (h : allocate 0 lines Assembly.empty = .ok s) :
    SchedulesApart s := by
  refine allocate_keeps (P := SchedulesApart) emitWord_keeps_apart ?_ ?_ h
    ⟨⟨.nil, nofun⟩, ⟨.nil, nofun⟩, nofun⟩
  · intro t s hs
    rwa [SchedulesApart, defineLabel_cursor, defineLabel_patches, defineLabel_literals]
  · intro n es s hs
    rwa [SchedulesApart, recordSource_cursor, recordSource_patches, recordSource_literals]

/-! ### The label pass -/

/-- The label pass goes on after a placeholder whose label is defined, with the label's address there (R110). -/
theorem solveLabels_cons_eq_ok {labels : List (Text × Nat)} {a : Nat} {t : Text} {rest : List (Nat × Text)}
    {image out : List (Nat × Word)} :
    solveLabels labels ((a, t) :: rest) image = .ok out ↔
      ∃ v, lookupText labels t = some v ∧ v < 65536 ∧
        solveLabels labels rest (writeImage image a (BitVec.ofNat 16 v)) = .ok out := by
  rw [solveLabels]
  cases lookupText labels t with
  | none => simp
  | some v => by_cases hv : v < 65536 <;> simp [hv]

theorem solveLabels_covers {labels : List (Text × Nat)} {patches : List (Nat × Text)} {image out : List (Nat × Word)}
    {n : Nat} (h : solveLabels labels patches image = .ok out) (hp : ∀ e ∈ patches, e.1 < n) (hc : Covers image n) :
    Covers out n := by
  induction patches generalizing image with
  | nil => cases h; exact hc
  | cons e rest ih =>
    obtain ⟨v, -, -, hrest⟩ := solveLabels_cons_eq_ok.mp h
    obtain ⟨he, hp⟩ := List.forall_mem_cons.mp hp
    exact ih hrest hp (hc.write_below he _)

/-- The label pass leaves an entry that is no label's placeholder. -/
theorem solveLabels_keeps {labels : List (Text × Nat)} {patches : List (Nat × Text)} {image out : List (Nat × Word)}
    {b : Nat} {w : Word} (h : solveLabels labels patches image = .ok out) (hb : ∀ e ∈ patches, b ≠ e.1)
    (hm : (b, w) ∈ image) : (b, w) ∈ out := by
  induction patches generalizing image with
  | nil => cases h; exact hm
  | cons e rest ih =>
    obtain ⟨v, -, -, hrest⟩ := solveLabels_cons_eq_ok.mp h
    obtain ⟨he, hb⟩ := List.forall_mem_cons.mp hb
    exact ih hrest hb (mem_writeImage_of_ne he hm)

/-- R110: the label pass finds every label and leaves its address at the placeholder. -/
theorem solveLabels_places {labels : List (Text × Nat)} {patches : List (Nat × Text)} {image out : List (Nat × Word)}
    (h : solveLabels labels patches image = .ok out) (hp : patches.Pairwise (fun d e => d.1 ≠ e.1)) :
    ∀ e ∈ patches, ∃ v, lookupText labels e.2 = some v ∧ (e.1, BitVec.ofNat 16 v) ∈ out := by
  induction patches generalizing image with
  | nil => nofun
  | cons d rest ih =>
    obtain ⟨v, hv, -, hrest⟩ := solveLabels_cons_eq_ok.mp h
    obtain ⟨hd, hp⟩ := List.pairwise_cons.mp hp
    exact List.forall_mem_cons.mpr
      ⟨⟨v, hv, solveLabels_keeps hrest hd (mem_writeImage_same _ _ _)⟩, ih hrest hp⟩

/-! ### The literal pass -/

/-- R111: the literal pass adds one address for each literal, inside the address space. -/
theorem allocateLiterals_covers {p : Nat} {literals image out : List (Nat × Word)}
    (h : allocateLiterals p literals image = .ok out) (hl : ∀ e ∈ literals, e.1 < p) (hc : Covers image p)
    (hp : p ≤ 65536) : Covers out (p + literals.length) ∧ p + literals.length ≤ 65536 := by
  induction literals generalizing p image with
  | nil => cases h; exact ⟨hc, hp⟩
  | cons e rest ih =>
    obtain ⟨hlt, hrest⟩ := allocateLiterals_cons_eq_ok.mp h
    obtain ⟨he, hl⟩ := List.forall_mem_cons.mp hl
    rw [List.length_cons, Nat.add_comm rest.length, ← Nat.add_assoc]
    refine ih hrest (fun e he => Nat.lt_succ_of_lt (hl e he)) ?_ hlt
    exact (hc.write_next _).write_below (Nat.lt_succ_of_lt he) _

/-! ### The obligations -/

/-- Settles O56: the allocate pass covers the addresses below its cursor, the label pass keeps them, the literal pass
adds the pool. -/
theorem imageIsContiguous : Obligations.ImageIsContiguous := by
  unfold Obligations.ImageIsContiguous
  intro lines p s hp hs
  obtain ⟨s', solved, image, hs', hsolved, himage, rfl⟩ := assemble_eq_ok.mp hp
  cases hs.symm.trans hs'
  obtain ⟨⟨-, hpatches⟩, ⟨-, hliterals⟩, -⟩ := allocate_apart hs
  have hcovers : Covers solved s.cursor := solveLabels_covers hsolved hpatches (allocate_covers hs)
  exact allocateLiterals_covers himage hliterals hcovers (allocate_cursor_le hs (Nat.zero_le _))

/-- Settles O57: what the label pass leaves at a placeholder, the literal pass, whose addresses are others, keeps. -/
theorem labelPatchesHoldAddresses : Obligations.LabelPatchesHoldAddresses := by
  unfold Obligations.LabelPatchesHoldAddresses
  intro lines p s hp hs e he
  obtain ⟨s', solved, image, hs', hsolved, himage, rfl⟩ := assemble_eq_ok.mp hp
  cases hs.symm.trans hs'
  obtain ⟨⟨hdistinct, hbelow⟩, -, hapart⟩ := allocate_apart hs
  obtain ⟨v, hv, hmem⟩ := solveLabels_places hsolved hdistinct e he
  exact ⟨v, hv, allocateLiterals_keeps himage (hbelow e he) (hapart e he) hmem⟩

end Sys2Proof.Assembler
end
